-- ==== Sys2Proof/Word.lean ====
section
/-! DEFINITION. The words of the command bus: bytes of a command image, 32-bit port patterns, the 3-bit operation
selector, and the command tuple the host drives (30_encoding.md R80). -/

namespace Sys2Proof

/-- One byte of a command image. -/
abbrev Byte := BitVec 8

/-- The pattern on an operand port A, B, C or on the result port Y: PORT_WIDTH = 32 bits (00_scope.md R6, R83). -/
abbrev Word := BitVec 32

/-- The operation selector OP[2:0] (R81). -/
abbrev Opcode := BitVec 3

/-- One command tuple `(ID, OP, A, B, C)` on the bus (R80). ID is the number of an instance, a plain index. -/
structure Command where
  id : Nat
  op : Opcode
  a : Word
  b : Word
  c : Word
  deriving DecidableEq, Repr

end Sys2Proof
end

