-- ==== Sys2Proof/Config.lean ====
section
/-! DEFINITION. The parameters of 00_scope.md R6: what the two realisations are, the three ROMs and their sizes, the
widths and masks, and the values `State.reset` takes for the two OPEN parameters (log 3). -/

namespace Sys2Proof

/-- ROM_MODE (R5): the ROMs hold their contents from power-on, or a generator agent fills them. -/
inductive RomMode where
  | precomputed
  | generated
  deriving DecidableEq, Repr

/-- The three shared ROMs (R1, R50). -/
inductive RomName where
  | exp
  | logSin
  | fastExp
  deriving DecidableEq, Repr

/-- The number of words of a ROM; its indices are 0 up to this (20_memory.md R50). -/
def romSize : RomName → Nat
  | .exp => 256
  | .logSin => 256
  | .fastExp => 8192

/-- OUT_MASK: 20 ones (R6). -/
def outMask : Nat := 0xFFFFF

/-- IN_MASK: 20 ones, as the 20-bit pattern that `logSin` folds with (R6, R150). -/
def inMask : BitVec 20 := 0xFFFFF#20

/-- The least and the greatest index of the FASTEXP domain bound every dB value (R6: 13 bits, 0..8191). -/
def dbMax : Int := 8191

/-- ID_WIDTH: ⌈log2 n⌉ bits and at least one, for n operator instances (R6). -/
def idWidth (n : Nat) : Nat := if n ≤ 2 then 1 else Nat.log2 (n - 1) + 1

/-- DESIGN CHOICE (log 3): N_OPERATORS of `State.reset`; the spec leaves it open, 1 or more (R6, D16). -/
def Config.nOperators : Nat := 2

/-- DESIGN CHOICE (log 3): ROM_MODE of `State.reset`; the spec leaves it open (R5, R6). -/
def Config.romMode : RomMode := .precomputed

end Sys2Proof
end

