-- ==== Sys2Proof/Syntax.lean ====
section
/-! DEFINITION. The commands of the core, one constructor per row of spec/opcode_table.json (30_encoding.md R85). -/

namespace Sys2Proof

/-- A command with the inputs it reads, as port patterns (R88); the reading of a pattern as a signed value and the checks
on it belong to the machine. `id` is the ID port; the table commands and the reserved selector carry it because a fault
records it (60_exceptions.md R202, log 8). -/
inductive Instr where
  /-- SET_FREQUENCY, OP = 000 (R130). -/
  | setFrequency (id : Nat) (fNumber octave : Word)
  /-- SET_MULTIPLIER, OP = 001 (R131). -/
  | setMultiplier (id : Nat) (mult : Word)
  /-- SET_RECTIFY, OP = 010 (R132): `enabled` is A[0]. -/
  | setRectify (id : Nat) (enabled : Bool)
  /-- START, OP = 011 (R133). -/
  | start (id : Nat)
  /-- FETCH_SAMPLE, OP = 100 (R158). -/
  | fetchSample (id : Nat) (freqDiff vib ampDiff : Word)
  /-- DB_TO_LINEAR, OP = 101 (R109). -/
  | dbToLinear (id : Nat) (db : Word)
  /-- READ_ROM, OP = 110 (R110). -/
  | readRom (id : Nat) (sel index : Word)
  /-- RESERVED, OP = 111 (R86). -/
  | reserved (id : Nat)
  deriving DecidableEq, Repr

/-- The ID port of a command. -/
def Instr.id : Instr → Nat
  | .setFrequency id _ _ => id
  | .setMultiplier id _ => id
  | .setRectify id _ => id
  | .start id => id
  | .fetchSample id _ _ _ => id
  | .dbToLinear id _ => id
  | .readRom id _ _ => id
  | .reserved id => id

end Sys2Proof
end

