-- ==== Sys2Proof/WellFormed.lean ====
section
/-! DEFINITION. Which commands can be written as an image, which can be driven on the ID port, and which pass the static
checks of 30_encoding.md R82 and R88. -/

namespace Sys2Proof

/-- The command fits the image: its ID fits the ID field of 29 bits (log 6). Every operand pattern fits by its type. -/
def Instr.wf (i : Instr) : Bool := decide (i.id < 2 ^ 29)

/-- The same for a command tuple. -/
def Command.wf (c : Command) : Bool := decide (c.id < 2 ^ 29)

/-- The host can drive the command on a port of ID_WIDTH bits, for n operator instances (R80, log 7). -/
def Command.drivable (n : Nat) (c : Command) : Bool := decide (c.id < 2 ^ idWidth n)

/-- The static checks of R82 and R88, in a core of n operator instances: the command is one of R85 and raises neither
IllegalOperationFault nor OperandFault (R90). -/
def Instr.admitted (n : Nat) : Instr → Bool
  | .setFrequency id _ octave => decide (id < n) && decide (0 ≤ octave.toInt) && decide (octave.toInt ≤ 31)
  | .setMultiplier id mult => decide (id < n) && decide (1 ≤ mult.toInt)
  | .setRectify id _ => decide (id < n)
  | .start id => decide (id < n)
  | .fetchSample id _ _ _ => decide (id < n)
  | .dbToLinear _ db => decide (0 ≤ db.toInt) && decide (db.toInt ≤ dbMax)
  | .readRom _ sel index =>
    decide (0 ≤ index.toInt) &&
      ((decide (sel.toInt = 0) && decide (index.toInt ≤ 255)) ||
       (decide (sel.toInt = 1) && decide (index.toInt ≤ 255)) ||
       (decide (sel.toInt = 2) && decide (index.toInt ≤ 8191)))
  | .reserved _ => false

end Sys2Proof
end

