-- ==== Sys2Proof/Decode.lean ====
section
/-! DEFINITION. From a command tuple to a command (30_encoding.md R81, R85, R88, R89), from the bytes of a command image to
a tuple (log 6), and back. Decoding a tuple is total (R90): its operand checks are the machine's. -/

namespace Sys2Proof

/-! ## The operation selector (R85) -/

def opSetFrequency : Opcode := 0b000#3
def opSetMultiplier : Opcode := 0b001#3
def opSetRectify : Opcode := 0b010#3
def opStart : Opcode := 0b011#3
def opFetchSample : Opcode := 0b100#3
def opDbToLinear : Opcode := 0b101#3
def opReadRom : Opcode := 0b110#3
def opReserved : Opcode := 0b111#3

/-- The OP value of a command (R85). -/
def Instr.op : Instr → Opcode
  | .setFrequency _ _ _ => opSetFrequency
  | .setMultiplier _ _ => opSetMultiplier
  | .setRectify _ _ => opSetRectify
  | .start _ => opStart
  | .fetchSample _ _ _ _ => opFetchSample
  | .dbToLinear _ _ => opDbToLinear
  | .readRom _ _ _ => opReadRom
  | .reserved _ => opReserved

/-! ## Tuples -/

/-- The command a tuple stands for: OP is read first and alone decides which operands exist (R89). An operand marked "—"
in R85, and A[31:1] of SET_RECTIFY, are not read (R87). -/
def decode (c : Command) : Instr :=
  if c.op = opSetFrequency then .setFrequency c.id c.a c.b
  else if c.op = opSetMultiplier then .setMultiplier c.id c.a
  else if c.op = opSetRectify then .setRectify c.id (c.a.getLsbD 0)
  else if c.op = opStart then .start c.id
  else if c.op = opFetchSample then .fetchSample c.id c.a c.b c.c
  else if c.op = opDbToLinear then .dbToLinear c.id c.a
  else if c.op = opReadRom then .readRom c.id c.a c.b
  else .reserved c.id

/-- The tuple of a command; unused ports are written as 0 (R92). -/
def encode (i : Instr) : Command :=
  match i with
  | .setFrequency id fNumber octave => ⟨id, opSetFrequency, fNumber, octave, 0#32⟩
  | .setMultiplier id mult => ⟨id, opSetMultiplier, mult, 0#32, 0#32⟩
  | .setRectify id enabled => ⟨id, opSetRectify, if enabled then 1#32 else 0#32, 0#32, 0#32⟩
  | .start id => ⟨id, opStart, 0#32, 0#32, 0#32⟩
  | .fetchSample id freqDiff vib ampDiff => ⟨id, opFetchSample, freqDiff, vib, ampDiff⟩
  | .dbToLinear id db => ⟨id, opDbToLinear, db, 0#32, 0#32⟩
  | .readRom id sel index => ⟨id, opReadRom, sel, index, 0#32⟩
  | .reserved id => ⟨id, opReserved, 0#32, 0#32, 0#32⟩

/-! ## Images (log 6)

A command image is four 32-bit words, the head word, A, B and C, each with its least significant byte first. The head word
has OP in bits [2:0], where spec/opcode_table.json puts it, and ID in bits [31:3]. -/

/-- Why bytes are no command image. -/
inductive DecodeError where
  /-- Fewer bytes than the 16 of an image. -/
  | truncated
  deriving DecidableEq, Repr

def headWord (id : Nat) (op : Opcode) : Word := (BitVec.ofNat 32 id <<< 3) ||| op.setWidth 32

def headId (w : Word) : Nat := (w >>> 3).toNat

def headOp (w : Word) : Opcode := w.setWidth 3

def wordBytes (w : Word) : List Byte :=
  [w.extractLsb' 0 8, w.extractLsb' 8 8, w.extractLsb' 16 8, w.extractLsb' 24 8]

def takeWord : List Byte → Except DecodeError (Word × List Byte)
  | b0 :: b1 :: b2 :: b3 :: rest => .ok (b3 ++ b2 ++ b1 ++ b0, rest)
  | _ => .error .truncated

/-- The image of a tuple. -/
def Command.toBytes (c : Command) : List Byte :=
  wordBytes (headWord c.id c.op) ++ wordBytes c.a ++ wordBytes c.b ++ wordBytes c.c

/-- The tuple at the front of a list of bytes, with the bytes after it. -/
def Command.ofBytes (bytes : List Byte) : Except DecodeError (Command × List Byte) :=
  match takeWord bytes with
  | .error e => .error e
  | .ok (head, r0) =>
    match takeWord r0 with
    | .error e => .error e
    | .ok (a, r1) =>
      match takeWord r1 with
      | .error e => .error e
      | .ok (b, r2) =>
        match takeWord r2 with
        | .error e => .error e
        | .ok (c, r3) => .ok (⟨headId head, headOp head, a, b, c⟩, r3)

/-- The command at the front of a list of bytes, with the bytes after it. -/
def decodeBytes (bytes : List Byte) : Except DecodeError (Instr × List Byte) :=
  match Command.ofBytes bytes with
  | .error e => .error e
  | .ok (c, rest) => .ok (decode c, rest)

/-- The image of a command. -/
def encodeBytes (i : Instr) : List Byte := (encode i).toBytes

/-! ## The table's numbering of bits -/

/-- The `count` lowest bytes of a number, the least significant first. -/
def imageBytes : Nat → Nat → List Byte
  | 0, _ => []
  | count + 1, w => BitVec.ofNat 8 w :: imageBytes count (w / 256)

/-- The tuple whose image has the low `nbits` bits of `w` as its bits from bit 0 up, and 0 above them. -/
def commandOfTableWord (nbits w : Nat) : Option Command :=
  match Command.ofBytes (imageBytes 16 (w % 2 ^ nbits)) with
  | .error _ => none
  | .ok (c, _) => some c

/-- The command the decoder reads from an image given as a number, bit 0 the least significant bit of the head word. -/
def decodeTableWord (nbits w : Nat) : Option Instr := (commandOfTableWord nbits w).map decode

end Sys2Proof
end

