-- ==== Sys2Proof/Machine/State.lean ====
section
/-! DEFINITION. The state of the core (10_state.md R20), the fault record (60_exceptions.md R201, R202), the host's side of
the command bus, and the state after power-on (70_reset_and_hazards.md R230). -/

namespace Sys2Proof.Machine

/-- The cells of a ROM of `w`-bit words that differ from what the ROM holds at power-on, by index (log 11). -/
abbrev RomCells (w : Nat) := List (Nat × BitVec w)

/-- One operator instance (R21). `none` is the spec's own ⊥: a register never written since power-on (R28, log 1). -/
structure Operator where
  /-- frequency ratio (R22) -/
  multiplier : Option (BitVec 32)
  /-- `fNumber << octave` mod 2^20 (R23) -/
  phaseIncrement : Option (BitVec 20)
  /-- raw F-number, read by no command (R24) -/
  fNumber : Option (BitVec 32)
  /-- half-wave rectification (R25) -/
  rectifyEnabled : Option Bool
  /-- phase accumulator (R26) -/
  phase : Option (BitVec 20)
  /-- last unsmoothed sample, two's complement (R27) -/
  previousOutput : Option (BitVec 21)
  deriving DecidableEq, Repr

/-- An operator at power-on: every register ⊥ (R21, R230). -/
def Operator.powerOn : Operator :=
  { multiplier := none, phaseIncrement := none, fNumber := none, rectifyEnabled := none, phase := none,
    previousOutput := none }

/-- The fault kinds of R201. -/
inductive FaultKind where
  | illegalOperation
  | operand
  | unwritten
  | domain
  deriving DecidableEq, Repr

/-- Which operand an OperandFault is about (R201). -/
inductive OperandName where
  | id
  | octave
  | mult
  | db
  | sel
  | index
  deriving DecidableEq, Repr

/-- Which field an UnwrittenFault is about: a register of the selected operator (R201), or a ROM word (R9; log 12: no
reachable state has one). -/
inductive UnwrittenField where
  | phase
  | previousOutput
  | phaseIncrement
  | multiplier
  | rectifyEnabled
  | romWord (rom : RomName) (index : Nat)
  deriving DecidableEq, Repr

/-- What a fault records beside its kind (R201, last column). -/
inductive FaultInfo where
  | op (value : Opcode)
  | operand (which : OperandName) (value : Int)
  | unwritten (field : UnwrittenField)
  | domain (dbSum : Int) (realPhase : BitVec 20) (ampDiff : Int)
  deriving DecidableEq, Repr

/-- The sticky fault record (R202). -/
structure FaultRecord where
  kind : FaultKind
  code : Nat
  id : Nat
  op : Opcode
  info : FaultInfo
  index : Nat
  deriving DecidableEq, Repr

/-- The three steps of the table generator (R100). -/
inductive GenStep where
  | genExp
  | genLogSin
  | genFastExp
  deriving DecidableEq, Repr

/-- Whose turn it is: the command unit's or a step of the generator's (R10). -/
inductive Turn where
  | commandUnit
  | generator (g : GenStep)
  deriving DecidableEq, Repr

/-- The core and the host's side of its bus. The number of operator instances N_OPERATORS is the length of `ops`.
The progress bits stand before the ROMs, so that a comparison of a state before and after a generator step stops there and
does not run the fill. -/
structure State where
  /-- ROM_MODE (R5); fixed for the machine -/
  romMode : RomMode
  /-- generator progress bits (R34) -/
  expDone : Bool
  logSinDone : Bool
  fastExpDone : Bool
  /-- EXP (R51) -/
  exp : RomCells 10
  /-- LOGSIN (R52) -/
  logSin : RomCells 12
  /-- FASTEXP (R53) -/
  fastExp : RomCells 20
  /-- the operator instances (R20, R209) -/
  ops : List Operator
  /-- the fault record, or none (R35) -/
  fault : Option FaultRecord
  /-- the host's commands not yet executed, in issue order (R80) -/
  commands : List Command
  /-- the position of the next command in the host's sequence (R202) -/
  index : Nat
  /-- what the last executed command drove on port Y; `none`: Y not driven (R84, log 10) -/
  y : Option Word
  /-- every Y value returned since power-on, oldest first: the observation of the run (R240) -/
  observed : List Word
  /-- the model's own: turns still to be taken, oldest first (log 4) -/
  schedule : List Turn
  deriving DecidableEq, Repr

/-- Power-on in a given realisation with `n` operator instances (R230). -/
def State.powerOn (mode : RomMode) (n : Nat) : State :=
  { romMode := mode
    exp := []
    logSin := []
    fastExp := []
    expDone := decide (mode = .precomputed)
    logSinDone := decide (mode = .precomputed)
    fastExpDone := decide (mode = .precomputed)
    ops := List.replicate n Operator.powerOn
    fault := none
    commands := []
    index := 0
    y := none
    observed := []
    schedule := [] }

/-- The machine right after reset: power-on with the parameter values of log 3. -/
def State.reset : State := State.powerOn Config.romMode Config.nOperators

/-- Why the machine stops. -/
inductive Fault where
  /-- Raised by every step, in `takeTurn`, when `core.fault` is set: a faulted core takes no further step (R203).
  It carries the recorded fault's kind. Safe: the spec says that nothing more is executed. -/
  | coreFaulted (kind : FaultKind)
  deriving DecidableEq, Repr

/-- Why a command has no meaning in this model. -/
inductive Refusal where
  /-- Raised by an arm of `exec` for a command whose meaning is not written yet; no arm raises it now. Safe. -/
  | notModelled (mnemonic : String)
  deriving DecidableEq, Repr

/-- The outcome of one step. -/
abbrev Result := Host.Outcome State Fault Refusal

end Sys2Proof.Machine
end

