-- ==== Sys2Proof/Machine/Operands.lean ====
section
/-! DEFINITION. Operand assembly and the checks of 30_encoding.md R88: every reading of a port pattern that a command makes.
Each check answers the operand's value where it passes. -/

namespace Sys2Proof.Machine

/-- `sext_32`: the signed reading of a port (00_scope.md R7). -/
abbrev sext32 (w : Word) : Int := w.toInt

/-- `octave = sext_32(B)` where it is in [0, 31] (R88, R130). -/
def octaveOf (b : Word) : Option Nat :=
  if 0 ≤ sext32 b ∧ sext32 b ≤ 31 then some (sext32 b).toNat else none

/-- `mult = sext_32(A)` where it is at least 1; the register keeps the pattern (R88, R131). -/
def multOf (a : Word) : Option (BitVec 32) := if 1 ≤ sext32 a then some a else none

/-- `db = sext_32(A)` where it is in [0, 8191] (R88, R109). -/
def dbOf (a : Word) : Option Nat :=
  if 0 ≤ sext32 a ∧ sext32 a ≤ dbMax then some (sext32 a).toNat else none

/-- The table that `sel = sext_32(A)` selects (R88, R110). -/
def selOf (a : Word) : Option RomName :=
  if sext32 a = 0 then some .exp
  else if sext32 a = 1 then some .logSin
  else if sext32 a = 2 then some .fastExp
  else none

/-- `index = sext_32(B)` where it is an index of the table (R88, R110). -/
def indexOf (rom : RomName) (b : Word) : Option Nat :=
  if 0 ≤ sext32 b ∧ sext32 b < romSize rom then some (sext32 b).toNat else none

/-- The five registers FETCH_SAMPLE reads, once all are written (10_state.md R28). -/
structure SampleRegs where
  phase : BitVec 20
  previousOutput : BitVec 21
  phaseIncrement : BitVec 20
  multiplier : BitVec 32
  rectifyEnabled : Bool
  deriving DecidableEq, Repr

/-- The registers of an operator, or the first ⊥ one in the order of 60_exceptions.md R201. -/
def sampleRegs (o : Operator) : Except UnwrittenField SampleRegs :=
  match o.phase, o.previousOutput, o.phaseIncrement, o.multiplier, o.rectifyEnabled with
  | none, _, _, _, _ => .error .phase
  | some _, none, _, _, _ => .error .previousOutput
  | some _, some _, none, _, _ => .error .phaseIncrement
  | some _, some _, some _, none, _ => .error .multiplier
  | some _, some _, some _, some _, none => .error .rectifyEnabled
  | some p, some po, some pi, some m, some r => .ok ⟨p, po, pi, m, r⟩

end Sys2Proof.Machine
end

