-- ==== Sys2Proof/Machine/Ops.lean ====
section
/-! DEFINITION. The named operations on the state: reading and writing ROM words (20_memory.md R58, R59), the operator
instances, completing a command, raising a fault (60_exceptions.md R202, R203), and the host's issue of a command. -/

namespace Sys2Proof.Machine

/-! ## ROM cells (log 11)

`background` is what a ROM word reads as while its index is not listed. The list is canonical: indices strictly rise, lie
in the ROM, and no listed word is the one that an unlisted index would read as. -/

/-- What an unlisted index of a ROM reads as: its power-on content, ⊥ in the GENERATED realisation (R230, R106). -/
def background (w : Nat) (rom : RomName) (mode : RomMode) (i : Nat) : Option (BitVec w) :=
  match mode with
  | .generated => none
  | .precomputed => if i < romSize rom then some (BitVec.ofNat w (romContents rom i)) else none

def cellsRead {w : Nat} (bg : Nat → Option (BitVec w)) : RomCells w → Nat → Option (BitVec w)
  | [], i => bg i
  | (a, v) :: rest, i => if a = i then some v else cellsRead bg rest i

/-- The cell for `v` at `i` in front of `rest`, where it differs from the background. -/
def cellsCons {w : Nat} (bg : Nat → Option (BitVec w)) (i : Nat) (v : BitVec w) (rest : RomCells w) : RomCells w :=
  if bg i = some v then rest else (i, v) :: rest

def cellsWrite {w : Nat} (bg : Nat → Option (BitVec w)) : RomCells w → Nat → BitVec w → RomCells w
  | [], i, v => cellsCons bg i v []
  | (a, u) :: rest, i, v =>
    if i < a then cellsCons bg i v ((a, u) :: rest)
    else if i = a then cellsCons bg i v rest
    else (a, u) :: cellsWrite bg rest i v

/-- Canonical form of a list whose indices are at least `low`. -/
def cellsWfFrom {w : Nat} (bg : Nat → Option (BitVec w)) (size : Nat) : Nat → RomCells w → Bool
  | _, [] => true
  | low, (a, v) :: rest =>
    decide (low ≤ a) && decide (a < size) && decide (bg a ≠ some v) && cellsWfFrom bg size (a + 1) rest

def cellsWf {w : Nat} (bg : Nat → Option (BitVec w)) (size : Nat) (m : RomCells w) : Bool := cellsWfFrom bg size 0 m

/-- Writes `f i` at every index below `n` where `f` gives a word; the loops of R101, R102 and R104. The spec's loops rise
and this one falls: the indices differ and the step is atomic (log 14). Irreducible, so that no elaboration unrolls it; its
lemmas are in Laws/Memory.lean. -/
@[irreducible] def cellsFill {w : Nat} (bg : Nat → Option (BitVec w)) (f : Nat → Option (BitVec w)) : Nat → RomCells w → RomCells w
  | 0, m => m
  | n + 1, m =>
    cellsFill bg f n (match f n with
      | some v => cellsWrite bg m n v
      | none => m)

/-! ## Reads of the state -/

/-- N_OPERATORS (R209). -/
def State.nOperators (s : State) : Nat := s.ops.length

/-- `tablesReady` (10_state.md R34). -/
def State.tablesReady (s : State) : Bool := s.expDone && s.logSinDone && s.fastExpDone

/-- `RomRead(R, i)`: the whole word, or ⊥; no index outside the ROM exists (R50, R58, R62). -/
def State.romRead (s : State) (rom : RomName) (i : Nat) : Option Nat :=
  if i < romSize rom then
    match rom with
    | .exp => (cellsRead (background 10 .exp s.romMode) s.exp i).map BitVec.toNat
    | .logSin => (cellsRead (background 12 .logSin s.romMode) s.logSin i).map BitVec.toNat
    | .fastExp => (cellsRead (background 20 .fastExp s.romMode) s.fastExp i).map BitVec.toNat
  else none

/-- All three ROMs are in canonical form. -/
def State.romsWf (s : State) : Bool :=
  cellsWf (background 10 .exp s.romMode) (romSize .exp) s.exp &&
  cellsWf (background 12 .logSin s.romMode) (romSize .logSin) s.logSin &&
  cellsWf (background 20 .fastExp s.romMode) (romSize .fastExp) s.fastExp

/-! ## Changes of the state -/

/-- Writes an operator instance back. -/
def State.setOp (s : State) (id : Nat) (o : Operator) : State := { s with ops := s.ops.set id o }

/-- A command completes: it leaves the head of the host's stream, and `y` is what it drives on port Y (R80, R84). -/
def State.complete (s : State) (y : Option Word) : State :=
  { s with commands := s.commands.tail, index := s.index + 1, y := y, observed := s.observed ++ y.toList }

/-- The kind of fault that records this info (R201). -/
def FaultInfo.kind : FaultInfo → FaultKind
  | .op _ => .illegalOperation
  | .operand _ _ => .operand
  | .unwritten _ => .unwritten
  | .domain _ _ _ => .domain

/-- The codes of R201. -/
def FaultKind.code : FaultKind → Nat
  | .illegalOperation => 1
  | .operand => 2
  | .unwritten => 3
  | .domain => 4

/-- A fault is taken: the record is written, Y is not driven, and nothing else changes (R202, R203). The command stays at
the head of the stream, which is never taken up again (log 9). -/
def State.takeFault (s : State) (id : Nat) (op : Opcode) (info : FaultInfo) : State :=
  { s with
    fault := some { kind := info.kind, code := info.kind.code, id := id, op := op, info := info, index := s.index }
    y := none }

/-- `raise <Fault>(info)` as the outcome of a command (R9, log 2). -/
def raise (s : State) (id : Nat) (op : Opcode) (info : FaultInfo) : Result := .next (s.takeFault id op info)

/-- `hold`: the command cannot take its step yet and stays pending (R9, R105). -/
def hold (s : State) : Result := .next s

/-- The instance that ID selects, or `OperandFault(ID)` when ID ≥ N_OPERATORS (30_encoding.md R82). -/
def withOperator (s : State) (id : Nat) (op : Opcode) (k : Operator → Result) : Result :=
  match s.ops[id]? with
  | none => raise s id op (.operand .id id)
  | some o => k o

/-- A command writes one operator and completes without driving Y (R84). -/
def finishConfig (s : State) (id : Nat) (o : Operator) : Result := .next ((s.setOp id o).complete none)

/-- A table read at the end of its checks: the hold, then Y (R58, R105). A word that is ⊥ with the tables ready raises
UnwrittenFault (R9; log 12: no reachable state has one). -/
def finishRead (s : State) (id : Nat) (op : Opcode) (rom : RomName) (i : Nat) : Result :=
  if s.tablesReady then
    match s.romRead rom i with
    | none => raise s id op (.unwritten (.romWord rom i))
    | some v => .next (s.complete (some (BitVec.ofNat 32 v)))
  else hold s

/-- The host issues a command: it joins the end of the stream (R80, R10). -/
def State.issue (s : State) (c : Command) : State := { s with commands := s.commands ++ [c] }

end Sys2Proof.Machine
end

