-- ==== Sys2Proof/Machine/OperatorConfig.lean ====
section
/-! DEFINITION. The commands that configure or retrigger one operator instance (41_operator_config.md). None reads a ROM or
a register, so none is held and none raises UnwrittenFault. -/

namespace Sys2Proof.Machine

/-- `trunc_20(fNumber << octave)` (R23, R130). -/
def phaseIncrementOf (fNumber : Word) (octave : Nat) : BitVec 20 := BitVec.ofNat 20 (fNumber.toNat <<< octave)

/-- SET_FREQUENCY (R130). -/
def execSetFrequency (id : Nat) (fNumber octave : Word) (s : State) : Result :=
  withOperator s id opSetFrequency fun o =>
    match octaveOf octave with
    | none => raise s id opSetFrequency (.operand .octave (sext32 octave))
    | some k => finishConfig s id { o with fNumber := some fNumber, phaseIncrement := some (phaseIncrementOf fNumber k) }

/-- SET_MULTIPLIER (R131). -/
def execSetMultiplier (id : Nat) (mult : Word) (s : State) : Result :=
  withOperator s id opSetMultiplier fun o =>
    match multOf mult with
    | none => raise s id opSetMultiplier (.operand .mult (sext32 mult))
    | some m => finishConfig s id { o with multiplier := some m }

/-- SET_RECTIFY (R132). -/
def execSetRectify (id : Nat) (enabled : Bool) (s : State) : Result :=
  withOperator s id opSetRectify fun o => finishConfig s id { o with rectifyEnabled := some enabled }

/-- START (R133). -/
def execStart (id : Nat) (s : State) : Result :=
  withOperator s id opStart fun o => finishConfig s id { o with phase := some 0#20, previousOutput := some 0#21 }

end Sys2Proof.Machine
end

