-- ==== Sys2Proof/Machine/Flags.lean ====
section
/-! DEFINITION. The core has no status flags (10_state.md R29). Its one flag-like quantity is `negate`, a transient of one
FETCH_SAMPLE; here are its computation and the sign handling it selects (42_operator_sample.md R153, R156). -/

namespace Sys2Proof.Machine

/-- `negate = realPhase[17]`: the sample lies in the negative half-wave (R153). -/
def negateOf (realPhase : BitVec 20) : Bool := realPhase.getLsbD 17

/-- The rectifier and negation (R156). -/
def signedOutput (negate rectifyEnabled : Bool) (linear : Int) : Int :=
  if negate then (if rectifyEnabled then 0 else -linear) else linear

end Sys2Proof.Machine
end

