-- ==== Sys2Proof/Machine/OperatorSample.lean ====
section
/-! DEFINITION. FETCH_SAMPLE and its datapath (42_operator_sample.md R150 to R158). Every stage computes exactly in the
integers and narrows at its end (00_scope.md R8). -/

namespace Sys2Proof.Machine

/-- `((op.phase >> 2) + freqDiff) & IN_MASK` (R151). -/
def realPhaseOf (phase : BitVec 20) (freqDiff : Word) : BitVec 20 :=
  BitVec.ofInt 20 (((phase.toNat >>> 2 : Nat) : Int) + sext32 freqDiff)

/-- `(op.phase + op.phaseIncrement · op.multiplier + vib · op.multiplier) & IN_MASK` (R152). -/
def phaseAdvance (phase phaseIncrement : BitVec 20) (multiplier : BitVec 32) (vib : Word) : BitVec 20 :=
  BitVec.ofInt 20
    ((phase.toNat : Int) + (phaseIncrement.toNat : Int) * (multiplier.toNat : Int) + sext32 vib * (multiplier.toNat : Int))

/-- The index into LOGSIN for `logSin(p)`: fold by XOR with IN_MASK when bit 16 is set, then bits [15:8] (R150). -/
def logSinIndex (p : BitVec 20) : Nat :=
  (((if p.getLsbD 16 then p ^^^ inMask else p) >>> 8) &&& 0xFF#20).toNat

/-- `logSin(p)` over the contents of LOGSIN (R150). -/
def logSin (p : BitVec 20) : Nat := logSinContents (logSinIndex p)

/-- The output average and shift (R157). -/
def smooth (output : Int) (previousOutput : BitVec 21) : Int := (output + previousOutput.toInt) >>> (1 : Nat)

/-- What a FETCH_SAMPLE writes: the advanced phase and the unsmoothed output (R152, R157). -/
def sampledOperator (o : Operator) (r : SampleRegs) (vib : Word) (output : Int) : Operator :=
  { o with
    phase := some (phaseAdvance r.phase r.phaseIncrement r.multiplier vib)
    previousOutput := some (BitVec.ofInt 21 output) }

/-- The end of a FETCH_SAMPLE once the linear value is read: sign, smoothing, the two writes and Y (R156, R157, R158). -/
def finishSample (s : State) (id : Nat) (o : Operator) (r : SampleRegs) (realPhase : BitVec 20) (vib : Word)
    (linear : Nat) : Result :=
  .next ((s.setOp id (sampledOperator o r vib (signedOutput (negateOf realPhase) r.rectifyEnabled linear))).complete
    (some (BitVec.ofInt 32 (smooth (signedOutput (negateOf realPhase) r.rectifyEnabled linear) r.previousOutput))))

/-- The lookups of a FETCH_SAMPLE: log-sine, the dB sum and its domain check, dB to linear (R150, R154, R155). -/
def sampleLookup (s : State) (id : Nat) (o : Operator) (r : SampleRegs) (realPhase : BitVec 20) (vib ampDiff : Word) :
    Result :=
  match s.romRead .logSin (logSinIndex realPhase) with
  | none => raise s id opFetchSample (.unwritten (.romWord .logSin (logSinIndex realPhase)))
  | some level =>
    if 0 ≤ (level : Int) + sext32 ampDiff ∧ (level : Int) + sext32 ampDiff ≤ dbMax then
      match s.romRead .fastExp ((level : Int) + sext32 ampDiff).toNat with
      | none => raise s id opFetchSample (.unwritten (.romWord .fastExp ((level : Int) + sext32 ampDiff).toNat))
      | some linear => finishSample s id o r realPhase vib linear
    else raise s id opFetchSample (.domain ((level : Int) + sext32 ampDiff) realPhase (sext32 ampDiff))

/-- FETCH_SAMPLE (R158), its checks in the order of 60_exceptions.md R204. -/
def execFetchSample (id : Nat) (freqDiff vib ampDiff : Word) (s : State) : Result :=
  withOperator s id opFetchSample fun o =>
    match sampleRegs o with
    | .error field => raise s id opFetchSample (.unwritten field)
    | .ok r =>
      if s.tablesReady then sampleLookup s id o r (realPhaseOf r.phase freqDiff) vib ampDiff
      else hold s

end Sys2Proof.Machine
end

