-- ==== Sys2Proof/Machine/TableCommands.lean ====
section
/-! DEFINITION. The commands that read the shared tables, DB_TO_LINEAR and READ_ROM (40_table_generator.md R109, R110), and
the reserved selector (30_encoding.md R86). -/

namespace Sys2Proof.Machine

/-- DB_TO_LINEAR (R109): the operand check comes before the hold. -/
def execDbToLinear (id : Nat) (db : Word) (s : State) : Result :=
  match dbOf db with
  | none => raise s id opDbToLinear (.operand .db (sext32 db))
  | some d => finishRead s id opDbToLinear .fastExp d

/-- READ_ROM (R110): sel, then index, then the hold. -/
def execReadRom (id : Nat) (sel index : Word) (s : State) : Result :=
  match selOf sel with
  | none => raise s id opReadRom (.operand .sel (sext32 sel))
  | some rom =>
    match indexOf rom index with
    | none => raise s id opReadRom (.operand .index (sext32 index))
    | some i => finishRead s id opReadRom rom i

/-- RESERVED, OP = 111 (R86): its effect is the IllegalOperationFault. -/
def execReserved (id : Nat) (s : State) : Result := raise s id opReserved (.op opReserved)

end Sys2Proof.Machine
end

