-- ==== Sys2Proof/Machine/Dispatch.lean ====
section
/-! DEFINITION. One arm per command (30_encoding.md R85). -/

namespace Sys2Proof.Machine

def exec (i : Instr) (s : State) : Host.Outcome State Fault Refusal :=
  match i with
  | .setFrequency id fNumber octave => Sys2Proof.Machine.execSetFrequency id fNumber octave s
  | .setMultiplier id mult => Sys2Proof.Machine.execSetMultiplier id mult s
  | .setRectify id enabled => Sys2Proof.Machine.execSetRectify id enabled s
  | .start id => Sys2Proof.Machine.execStart id s
  | .fetchSample id freqDiff vib ampDiff => Sys2Proof.Machine.execFetchSample id freqDiff vib ampDiff s
  | .dbToLinear id db => Sys2Proof.Machine.execDbToLinear id db s
  | .readRom id sel index => Sys2Proof.Machine.execReadRom id sel index s
  | .reserved id => Sys2Proof.Machine.execReserved id s

end Sys2Proof.Machine
end

