-- ==== Sys2Proof/Machine/TableGenerator.lean ====
section
/-! DEFINITION. The table generator of the GENERATED realisation (40_table_generator.md R100 to R104, R107). -/

namespace Sys2Proof.Machine

/-- When a generator step is enabled (R100); in the PRECOMPUTED realisation there is no generator. -/
def genEnabled (g : GenStep) (s : State) : Bool :=
  decide (s.romMode = .generated) &&
  match g with
  | .genExp => !s.expDone
  | .genLogSin => !s.logSinDone
  | .genFastExp => s.expDone && s.logSinDone && !s.fastExpDone

/-- GEN_EXP (R101). -/
def genExp (s : State) : State :=
  { s with
    exp := cellsFill (background 10 .exp s.romMode) (fun i => some (BitVec.ofNat 10 (expContents i))) (romSize .exp) s.exp
    expDone := true }

/-- GEN_LOGSIN (R102). -/
def genLogSin (s : State) : State :=
  { s with
    logSin := cellsFill (background 12 .logSin s.romMode) (fun i => some (BitVec.ofNat 12 (logSinContents i)))
      (romSize .logSin) s.logSin
    logSinDone := true }

/-- `dbToLinear(db) & OUT_MASK` over the EXP words as they stand (R103, R104); ⊥ where the EXP word is ⊥ (log 12: no
reachable state has one once `expDone` is 1). -/
def fastExpFromExp (s : State) (db : Nat) : Option (BitVec 20) :=
  (s.romRead .exp (dbToLinearIndex db)).map fun word => BitVec.ofNat 20 (dbToLinearOf word db &&& outMask)

/-- GEN_FASTEXP (R104). -/
def genFastExp (s : State) : State :=
  { s with
    fastExp := cellsFill (background 20 .fastExp s.romMode) (fastExpFromExp s) (romSize .fastExp) s.fastExp
    fastExpDone := true }

/-- What an enabled generator step does. -/
def genWrite : GenStep → State → State
  | .genExp => genExp
  | .genLogSin => genLogSin
  | .genFastExp => genFastExp

/-- The generator's turn: the step where it is enabled, else nothing (R100). -/
def generatorTurn (g : GenStep) (s : State) : State := if genEnabled g s then genWrite g s else s

end Sys2Proof.Machine
end

