-- ==== Sys2Proof/Machine/Bus.lean ====
section
/-! DEFINITION. The turns of the two agents (00_scope.md R10) and the choice between them (log 4). -/

namespace Sys2Proof.Machine

/-- The command unit's turn: with no command pending the core waits (70_reset_and_hazards.md R232, log 13); else the
command at the head is decoded and executed (R80). -/
def commandTurn (s : State) : Result :=
  match s.commands with
  | [] => .next s
  | c :: _ => exec (decode c) s

/-- The turn taken when `schedule` names none: an enabled generator step, else the command unit. So an unscheduled
generator always finishes (R100, R105, R238). -/
def defaultTurn (s : State) : Turn :=
  if genEnabled .genExp s then .generator .genExp
  else if genEnabled .genLogSin s then .generator .genLogSin
  else if genEnabled .genFastExp s then .generator .genFastExp
  else .commandUnit

/-- Whose turn it is. -/
def nextTurn (s : State) : Turn :=
  match s.schedule with
  | [] => defaultTurn s
  | t :: _ => t

/-- The turn is used up. -/
def dropTurn (s : State) : State := { s with schedule := s.schedule.tail }

/-- An agent takes its turn. -/
def agentTurn (t : Turn) (s : State) : Result :=
  match t with
  | .commandUnit => commandTurn s
  | .generator g => .next (generatorTurn g s)

/-- The next turn is taken, whichever agent's it is, unless `core.fault` is set: "a faulted core takes no further step"
(60_exceptions.md R203), neither a command nor a generator step (log 2). -/
def takeTurn (s : State) : Result :=
  match s.fault with
  | some r => .fault (.coreFaulted r.kind)
  | none => agentTurn (nextTurn s) (dropTurn s)

/-- The host replaces the next command of its stream, and the command unit is given the next turn. -/
def driveNext (s : State) (c : Command) : State :=
  { s with commands := c :: s.commands.tail, schedule := .commandUnit :: s.schedule }

/-- The command of an image given as a number (log 6) is the next one; 16 bytes always hold a command. -/
def placeTableWord (s : State) (nbits w : Nat) : State :=
  match commandOfTableWord nbits w with
  | none => s
  | some c => driveNext s c

end Sys2Proof.Machine
end

