-- ==== Sys2Proof/Machine/Step.lean ====
section
/-! DEFINITION. One step of the machine: one turn of one agent (00_scope.md R9, R10). -/

namespace Sys2Proof.Machine

/-- One step: a command, a generator step, or a wait (70_reset_and_hazards.md R238); a faulted core takes none
(60_exceptions.md R203). -/
def step (s : State) : Host.Outcome State Fault Refusal := takeTurn s

/-- The state in which the next step takes the command whose image is `w` (log 5): the host drives it at the head of its
stream and the command unit has the next turn. A set fault record is kept: a faulted core takes no step. -/
def State.withFetchWord (s : State) (nbits w : Nat) : State := placeTableWord s nbits w

end Sys2Proof.Machine
end

