-- ==== Sys2Proof/Machine/Assembler.lean ====
section
/-! DEFINITION. The text form of a command (30_encoding.md R92): a line as data, the tuple it stands for, its text and
the encoded form's text, and the reading of a line (log 15). -/

namespace Sys2Proof.Machine

/-- One line of R92. The table commands and the reserved selector name no instance. -/
inductive AsmLine where
  | setFreq (id : Nat) (fNumber octave : Int)
  | setMul (id : Nat) (mult : Int)
  | setRect (id : Nat) (enabled : Bool)
  | start (id : Nat)
  | fetch (id : Nat) (freqDiff vib ampDiff : Int)
  | db2lin (db : Int)
  | readRom (rom : RomName) (index : Int)
  deriving DecidableEq, Repr

/-- A value is placed on its port as `trunc_32(value)` (R92). -/
def onPort (v : Int) : Word := BitVec.ofInt 32 v

/-- Table names are sel 0, 1, 2 (R92, R88). -/
def romSelector : RomName → Word
  | .exp => 0#32
  | .logSin => 1#32
  | .fastExp => 2#32

/-- The tuple of a line; unused ports are 0 (R92). -/
def assemble : AsmLine → Command
  | .setFreq id fNumber octave => ⟨id, opSetFrequency, onPort fNumber, onPort octave, 0#32⟩
  | .setMul id mult => ⟨id, opSetMultiplier, onPort mult, 0#32, 0#32⟩
  | .setRect id enabled => ⟨id, opSetRectify, if enabled then 1#32 else 0#32, 0#32, 0#32⟩
  | .start id => ⟨id, opStart, 0#32, 0#32, 0#32⟩
  | .fetch id freqDiff vib ampDiff => ⟨id, opFetchSample, onPort freqDiff, onPort vib, onPort ampDiff⟩
  | .db2lin db => ⟨0, opDbToLinear, onPort db, 0#32, 0#32⟩
  | .readRom rom index => ⟨0, opReadRom, romSelector rom, onPort index, 0#32⟩

/-! ## Text -/

def romText : RomName → String
  | .exp => "EXP"
  | .logSin => "LOGSIN"
  | .fastExp => "FASTEXP"

def operatorText (id : Nat) : String := "op" ++ toString id

/-- The text of a line, numbers in decimal (R92). -/
def AsmLine.text : AsmLine → String
  | .setFreq id fNumber octave => "SETFREQ " ++ operatorText id ++ ", " ++ toString fNumber ++ ", " ++ toString octave
  | .setMul id mult => "SETMUL " ++ operatorText id ++ ", " ++ toString mult
  | .setRect id enabled => "SETRECT " ++ operatorText id ++ ", " ++ toString enabled.toNat
  | .start id => "START " ++ operatorText id
  | .fetch id freqDiff vib ampDiff =>
    "FETCH " ++ operatorText id ++ ", " ++ toString freqDiff ++ ", " ++ toString vib ++ ", " ++ toString ampDiff
  | .db2lin db => "DB2LIN " ++ toString db
  | .readRom rom index => "READROM " ++ romText rom ++ ", " ++ toString index

def digitChar (n : Nat) : Char := "0123456789ABCDEF".toList.getD n '0'

/-- The `count` lowest digits of a number, the most significant first. -/
def digits (base : Nat) : Nat → Nat → List Char
  | 0, _ => []
  | count + 1, n => digits base count (n / base) ++ [digitChar (n % base)]

def portText (w : Word) : String := "0x" ++ String.ofList (digits 16 8 w.toNat)

/-- The encoded form `ID=<n> OP=<3 bits> A=0x<8 hex> B=0x<8 hex> C=0x<8 hex>` (R92). -/
def encodedText (c : Command) : String :=
  "ID=" ++ toString c.id ++ " OP=" ++ String.ofList (digits 2 3 c.op.toNat) ++
    " A=" ++ portText c.a ++ " B=" ++ portText c.b ++ " C=" ++ portText c.c

/-! ## Reading a line (log 15) -/

/-- The words of a line: separated by spaces, tabs and commas, up to a `;` comment. -/
def tokensFrom (word : List Char) : List Char → List (List Char)
  | [] => if word.isEmpty then [] else [word.reverse]
  | ch :: rest =>
    if ch = ';' then (if word.isEmpty then [] else [word.reverse])
    else if ch = ' ' || ch = ',' || ch = '\t' then
      (if word.isEmpty then tokensFrom [] rest else word.reverse :: tokensFrom [] rest)
    else tokensFrom (ch :: word) rest

def digitValue (ch : Char) : Option Nat :=
  if '0' ≤ ch ∧ ch ≤ '9' then some (ch.toNat - '0'.toNat)
  else if 'a' ≤ ch ∧ ch ≤ 'f' then some (ch.toNat - 'a'.toNat + 10)
  else if 'A' ≤ ch ∧ ch ≤ 'F' then some (ch.toNat - 'A'.toNat + 10)
  else none

def readDigits (base acc : Nat) : List Char → Option Nat
  | [] => some acc
  | ch :: rest =>
    match digitValue ch with
    | none => none
    | some d => if d < base then readDigits base (acc * base + d) rest else none

def readMagnitude : List Char → Option Nat
  | [] => none
  | '0' :: 'x' :: ch :: rest => readDigits 16 0 (ch :: rest)
  | ch :: rest => readDigits 10 0 (ch :: rest)

/-- Decimal, or hexadecimal with `0x`, with an optional leading `-` (R92). -/
def readNumber : List Char → Option Int
  | '-' :: rest => (readMagnitude rest).map fun n => -(n : Int)
  | word => (readMagnitude word).map fun n => (n : Int)

/-- `op<ID>` (R92). DESIGN CHOICE (log 15): the instance number is decimal digits only, without the `0x` form of the other
numbers; R92 does not say. -/
def readOperator : List Char → Option Nat
  | 'o' :: 'p' :: ch :: rest => readDigits 10 0 (ch :: rest)
  | _ => none

/-- The `<0|1>` of SETRECT (R92). DESIGN CHOICE (log 15): the single character 0 or 1, not another spelling of the number. -/
def readBit (word : List Char) : Option Bool :=
  if word = ['0'] then some false else if word = ['1'] then some true else none

def readRomName (word : List Char) : Option RomName :=
  if word = "EXP".toList then some .exp
  else if word = "LOGSIN".toList then some .logSin
  else if word = "FASTEXP".toList then some .fastExp
  else none

/-- The line that a text stands for, or none. -/
def readLine (line : List Char) : Option AsmLine :=
  match tokensFrom [] line with
  | [m, x] =>
    if m = "START".toList then (readOperator x).map .start
    else if m = "DB2LIN".toList then (readNumber x).map .db2lin
    else none
  | [m, x, y] =>
    if m = "SETMUL".toList then (readOperator x).bind fun id => (readNumber y).map (.setMul id)
    else if m = "SETRECT".toList then (readOperator x).bind fun id => (readBit y).map (.setRect id)
    else if m = "READROM".toList then (readRomName x).bind fun rom => (readNumber y).map (.readRom rom)
    else none
  | [m, x, y, z] =>
    if m = "SETFREQ".toList then
      (readOperator x).bind fun id => (readNumber y).bind fun f => (readNumber z).map (.setFreq id f)
    else none
  | [m, x, y, z, u] =>
    if m = "FETCH".toList then
      (readOperator x).bind fun id => (readNumber y).bind fun f => (readNumber z).bind fun v =>
        (readNumber u).map (.fetch id f v)
    else none
  | _ => none

/-- The tuple that a line of text stands for, or none. -/
def assembleText (line : String) : Option Command := (readLine line.toList).map assemble

end Sys2Proof.Machine
end

