-- ==== Sys2Proof/Safety.lean ====
section
/-! DEFINITION. What counts as a good state, a reachable state and a normal end of a run, and the views of the state that
claims compare. -/

namespace Sys2Proof.Machine

/-- The register ranges of 10_state.md R38 and, for `previousOutput`, of 42_operator_sample.md R160: 0 or a magnitude in
[4096, 1045504], and a multiple of 4. -/
structure Operator.Wf (o : Operator) : Prop where
  phase : ∀ p, o.phase = some p → p.toNat < 2 ^ 20
  phaseIncrement : ∀ p, o.phaseIncrement = some p → p.toNat < 2 ^ 20
  multiplier : ∀ m, o.multiplier = some m → 1 ≤ m.toNat ∧ m.toNat < 2 ^ 31
  previousOutput : ∀ v, o.previousOutput = some v →
    (v.toInt = 0 ∨ (4096 ≤ v.toInt.natAbs ∧ v.toInt.natAbs ≤ 1045504)) ∧ v.toInt % 4 = 0

/-- A ROM holds its contents (20_memory.md R51 to R53). -/
def State.holds (s : State) (rom : RomName) : Prop := ∀ i, i < romSize rom → s.romRead rom i = some (romContents rom i)

/-- Once the tables are ready, every ROM word is the value of 20_memory.md R51 to R53 (R38, last clause). -/
def State.romsFilled (s : State) : Prop := s.tablesReady = true → ∀ rom, s.holds rom

/-- The invariant of the machine: R38, the canonical form of the ROM cells, the progress bits' rules (10_state.md R34,
40_table_generator.md R100, R104), N_OPERATORS ≥ 1 (00_scope.md R6), and a fault record with its own kind and code. -/
structure State.Inv (s : State) : Prop where
  operators : ∀ o, o ∈ s.ops → o.Wf
  someOperator : 1 ≤ s.nOperators
  canonical : s.romsWf = true
  expFilled : s.expDone = true → s.holds .exp
  logSinFilled : s.logSinDone = true → s.holds .logSin
  fastExpFilled : s.fastExpDone = true → s.holds .fastExp
  slowFirst : s.fastExpDone = true → s.expDone = true ∧ s.logSinDone = true
  precomputedReady : s.romMode = .precomputed → s.tablesReady = true
  faultRecord : ∀ r, s.fault = some r → r.kind = r.info.kind ∧ r.code = r.kind.code

/-- A state of some run from power-on, in either realisation, with any number of instances, any commands issued by the host
between steps, and any turns chosen for the agents. -/
inductive Reachable : State → Prop where
  | powerOn (mode : RomMode) (n : Nat) (h : 1 ≤ n) : Reachable (State.powerOn mode n)
  | step {s t : State} (h : Reachable s) (ht : Machine.step s = .next t) : Reachable t
  | issue {s : State} (h : Reachable s) (c : Command) : Reachable (s.issue c)
  | turns {s : State} (h : Reachable s) (ts : List Turn) : Reachable { s with schedule := ts }

/-- The normal end of a run: every command executed and no fault recorded (70_reset_and_hazards.md R240). -/
def State.endedNormally (s : State) : Prop := s.commands = [] ∧ s.fault = none

/-- The command selects an operator instance (30_encoding.md R82). -/
def selectsOperator : Instr → Bool
  | .setFrequency _ _ _ => true
  | .setMultiplier _ _ => true
  | .setRectify _ _ => true
  | .start _ => true
  | .fetchSample _ _ _ _ => true
  | .dbToLinear _ _ => false
  | .readRom _ _ _ => false
  | .reserved _ => false

/-- The command returns a result on port Y (30_encoding.md R84). -/
def returnsResult : Instr → Bool
  | .setFrequency _ _ _ => false
  | .setMultiplier _ _ => false
  | .setRectify _ _ => false
  | .start _ => false
  | .fetchSample _ _ _ _ => true
  | .dbToLinear _ _ => true
  | .readRom _ _ _ => true
  | .reserved _ => false

/-- What commands can observe of an operator: not the raw F-number (10_state.md R24), and of the multiplier only its residue
mod 2^20 (R22). -/
def Operator.view (o : Operator) : Operator :=
  { o with fNumber := none, multiplier := o.multiplier.map fun m => BitVec.ofNat 32 (m.toNat % 2 ^ 20) }

/-- The state with every operator seen through `Operator.view`. -/
def State.view (s : State) : State := { s with ops := s.ops.map Operator.view }

/-- Two outcomes agree: next states with the same view, or the same stop. -/
def sameView : Result → Result → Prop
  | .next s, .next t => s.view = t.view
  | .fault r, .fault q => r = q
  | .refused r, .refused q => r = q
  | _, _ => False

/-- The same run so far, whatever the realisation of the ROMs: the same operators, fault record, stream, position, Y and
observation (00_scope.md R5). -/
structure SameRun (s t : State) : Prop where
  ops : s.ops = t.ops
  fault : s.fault = t.fault
  commands : s.commands = t.commands
  index : s.index = t.index
  y : s.y = t.y
  observed : s.observed = t.observed

end Sys2Proof.Machine
end

