-- ==== Sys2Proof/Certificates/Slice0/Obligations.lean ====
section
/-! DEFINITION. The statements about the model, from the numbered rules of spec/. -/

open Sys2Proof Sys2Proof.Machine

/-! ## Encoding -/

/-- R85, R88, R89, R92 and the image of log 6: decoding the image of a command gives the command back and leaves the bytes
after it. -/
def Obligations.DecodeBytesOfEncodeBytes : Prop :=
  ∀ (i : Instr) (rest : List Byte), i.wf = true → decodeBytes (encodeBytes i ++ rest) = .ok (i, rest)

/-- Log 6: sixteen bytes or more always decode, fewer never do, and the decoded tuple's image is the bytes it was read from,
so that no bit of an image is dropped. -/
def Obligations.ImageOfDecodedBytes : Prop :=
  (∀ bytes : List Byte, (∃ i rest, decodeBytes bytes = .ok (i, rest)) ↔ 16 ≤ bytes.length) ∧
  (∀ (bytes rest : List Byte) (c : Command), Command.ofBytes bytes = .ok (c, rest) →
    c.toBytes ++ rest = bytes ∧ c.wf = true)

/-- R85, R88: each OP value with the operands it reads. -/
def Obligations.OperationMap : Prop :=
  ∀ (id : Nat) (a b c : Word),
    decode ⟨id, 0b000#3, a, b, c⟩ = .setFrequency id a b ∧
    decode ⟨id, 0b001#3, a, b, c⟩ = .setMultiplier id a ∧
    decode ⟨id, 0b010#3, a, b, c⟩ = .setRectify id (a.getLsbD 0) ∧
    decode ⟨id, 0b011#3, a, b, c⟩ = .start id ∧
    decode ⟨id, 0b100#3, a, b, c⟩ = .fetchSample id a b c ∧
    decode ⟨id, 0b101#3, a, b, c⟩ = .dbToLinear id a ∧
    decode ⟨id, 0b110#3, a, b, c⟩ = .readRom id a b ∧
    decode ⟨id, 0b111#3, a, b, c⟩ = .reserved id

/-- Words written out from R85 and the image of log 6 (OP in bits [2:0], ID from bit 3, A from bit 32, B from bit 64, C from
bit 96) decode to the command they stand for; the operands are those of programs P1, P3 and P7. -/
def Obligations.WrittenWordsDecode : Prop :=
  decodeTableWord 128 0x00000000000000100000000100000000 = some (.setFrequency 0 1#32 16#32) ∧
  decodeTableWord 128 0x00000000000000000000000100000009 = some (.setMultiplier 1 1#32) ∧
  decodeTableWord 128 0x000000000000000000000001FFFFFFFA = some (.setRectify 0x1FFFFFFF true) ∧
  decodeTableWord 8 0x03 = some (.start 0) ∧
  decodeTableWord 128 0x0000030000000003FFFEF4360000000C = some (.fetchSample 1 0xFFFEF436#32 3#32 0x300#32) ∧
  decodeTableWord 64 0x0000085900000005 = some (.dbToLinear 0 0x859#32) ∧
  decodeTableWord 96 0x00001FFF0000000200000006 = some (.readRom 0 2#32 0x1FFF#32) ∧
  decodeTableWord 8 0x07 = some (.reserved 0)

/-- R90 with R82, R86 and R88: every tuple is exactly one of an illegal operation, a command whose ID or operand fails its
check, or a command that raises neither of the two. -/
def Obligations.TupleIsFaultOrCommand : Prop :=
  ∀ (c : Command) (s : State),
    (c.op = 0b111#3 → exec (decode c) s = .next (s.takeFault c.id c.op (.op 0b111#3))) ∧
    (c.op ≠ 0b111#3 → (decode c).admitted s.nOperators = false →
      ∃ which value, exec (decode c) s = .next (s.takeFault c.id c.op (.operand which value))) ∧
    (c.op ≠ 0b111#3 → (decode c).admitted s.nOperators = true →
      ∀ t, exec (decode c) s = .next t →
        t.fault = s.fault ∨ ∃ r, t.fault = some r ∧ (r.kind = .unwritten ∨ r.kind = .domain))

/-- R87: an unused input changes neither what a tuple decodes to nor, where no fault is recorded, what a table command does.
That a fault's record still holds the ID of a table command is the model's reading (log 8). -/
def Obligations.UnusedInputsIgnored : Prop :=
  (∀ (id : Nat) (a b c c' : Word), decode ⟨id, 0b000#3, a, b, c⟩ = decode ⟨id, 0b000#3, a, b, c'⟩) ∧
  (∀ (id : Nat) (a b b' c c' : Word), decode ⟨id, 0b001#3, a, b, c⟩ = decode ⟨id, 0b001#3, a, b', c'⟩) ∧
  (∀ (id : Nat) (a a' b b' c c' : Word), a.getLsbD 0 = a'.getLsbD 0 →
    decode ⟨id, 0b010#3, a, b, c⟩ = decode ⟨id, 0b010#3, a', b', c'⟩) ∧
  (∀ (id : Nat) (a a' b b' c c' : Word), decode ⟨id, 0b011#3, a, b, c⟩ = decode ⟨id, 0b011#3, a', b', c'⟩) ∧
  (∀ (id id' : Nat) (a b b' c c' : Word) (s t : State), s.fault = none → t.fault = none →
    exec (decode ⟨id, 0b101#3, a, b, c⟩) s = .next t → exec (decode ⟨id', 0b101#3, a, b', c'⟩) s = .next t) ∧
  (∀ (id id' : Nat) (a b c c' : Word) (s t : State), s.fault = none → t.fault = none →
    exec (decode ⟨id, 0b110#3, a, b, c⟩) s = .next t → exec (decode ⟨id', 0b110#3, a, b, c'⟩) s = .next t)

/-- R92: the tuple of each line of text decodes to the command it names, each value taken mod 2^32. -/
def Obligations.AssembledLinesDecode : Prop :=
  ∀ (id : Nat) (x y z : Int) (e : Bool),
    decode (assemble (.setFreq id x y)) = .setFrequency id (BitVec.ofInt 32 x) (BitVec.ofInt 32 y) ∧
    decode (assemble (.setMul id x)) = .setMultiplier id (BitVec.ofInt 32 x) ∧
    decode (assemble (.setRect id e)) = .setRectify id e ∧
    decode (assemble (.start id)) = .start id ∧
    decode (assemble (.fetch id x y z)) =
      .fetchSample id (BitVec.ofInt 32 x) (BitVec.ofInt 32 y) (BitVec.ofInt 32 z) ∧
    decode (assemble (.db2lin x)) = .dbToLinear 0 (BitVec.ofInt 32 x) ∧
    decode (assemble (.readRom .exp x)) = .readRom 0 0#32 (BitVec.ofInt 32 x) ∧
    decode (assemble (.readRom .logSin x)) = .readRom 0 1#32 (BitVec.ofInt 32 x) ∧
    decode (assemble (.readRom .fastExp x)) = .readRom 0 2#32 (BitVec.ofInt 32 x)

/-- R6: ID_WIDTH is ⌈log2 N_OPERATORS⌉ and at least 1, so that every instance has a number on the ID port. -/
def Obligations.IdWidthIsCeilLog : Prop :=
  ∀ n : Nat, 1 ≤ n → 1 ≤ idWidth n ∧ n ≤ 2 ^ idWidth n ∧ (2 ≤ idWidth n → 2 ^ (idWidth n - 1) < n)

/-! ## Power-on, invariants and reachable states -/

/-- R230: the state after power-on, in both realisations and for every number of instances. -/
def Obligations.PowerOnState : Prop :=
  ∀ (mode : RomMode) (n : Nat),
    (∀ rom i, i < romSize rom →
      (State.powerOn mode n).romRead rom i = if mode = .precomputed then some (romContents rom i) else none) ∧
    (State.powerOn mode n).expDone = decide (mode = .precomputed) ∧
    (State.powerOn mode n).logSinDone = decide (mode = .precomputed) ∧
    (State.powerOn mode n).fastExpDone = decide (mode = .precomputed) ∧
    (State.powerOn mode n).ops.length = n ∧
    (∀ o, o ∈ (State.powerOn mode n).ops → o.multiplier = none ∧ o.phaseIncrement = none ∧ o.fNumber = none ∧
      o.rectifyEnabled = none ∧ o.phase = none ∧ o.previousOutput = none) ∧
    (State.powerOn mode n).fault = none

/-- The invariant holds at power-on, and so at `State.reset` (whose parameter values are the model's choice, log 3). -/
def Obligations.InvariantAtPowerOn : Prop :=
  (∀ (mode : RomMode) (n : Nat), 1 ≤ n → (State.powerOn mode n).Inv) ∧ State.reset.Inv

/-- Every step keeps the invariant: the register ranges of R38, the canonical form of the ROMs, their contents once their
progress bit is 1, and the rules of the progress bits. -/
def Obligations.StepKeepsInvariant : Prop :=
  ∀ s t : State, s.Inv → step s = .next t → t.Inv

/-- The invariants of every reachable state, which 10_state.md R38 marks as derived from R51 to R56, R130 to R133 and R158. -/
def Obligations.ReachableStatesMeetRanges : Prop :=
  ∀ s : State, Reachable s →
    (∀ o, o ∈ s.ops →
      (∀ p, o.phase = some p → p.toNat < 2 ^ 20) ∧
      (∀ p, o.phaseIncrement = some p → p.toNat < 2 ^ 20) ∧
      (∀ m, o.multiplier = some m → 1 ≤ m.toNat ∧ m.toNat < 2 ^ 31) ∧
      (∀ v, o.previousOutput = some v → v.toInt = 0 ∨ (4096 ≤ v.toInt.natAbs ∧ v.toInt.natAbs ≤ 1045504))) ∧
    (s.tablesReady = true → ∀ rom i, i < romSize rom → s.romRead rom i = some (romContents rom i))

/-- The cells of a ROM are canonical data (log 11): two canonical lists that read the same at every index are equal. -/
def Obligations.EqualRomsAreEqualData : Prop :=
  ∀ (w : Nat) (bg : Nat → Option (BitVec w)) (size : Nat) (m m' : RomCells w),
    cellsWf bg size m = true → cellsWf bg size m' = true → (∀ i, cellsRead bg m i = cellsRead bg m' i) → m = m'

/-! ## Operator configuration commands -/

/-- R130: SET_FREQUENCY completes with both registers written where ID and octave pass their checks, and raises
OperandFault for the ID, then for the octave, where they do not. -/
def Obligations.SetFrequencyResult : Prop :=
  ∀ (id : Nat) (fNumber octave c : Word) (s : State),
    (∀ o, s.ops[id]? = some o → 0 ≤ octave.toInt → octave.toInt ≤ 31 →
      exec (decode ⟨id, 0b000#3, fNumber, octave, c⟩) s =
        .next ((s.setOp id { o with
          fNumber := some fNumber
          phaseIncrement := some (BitVec.ofNat 20 (fNumber.toNat * 2 ^ octave.toInt.toNat)) }).complete none)) ∧
    (s.nOperators ≤ id →
      exec (decode ⟨id, 0b000#3, fNumber, octave, c⟩) s = .next (s.takeFault id 0b000#3 (.operand .id id))) ∧
    (id < s.nOperators → (octave.toInt < 0 ∨ 31 < octave.toInt) →
      exec (decode ⟨id, 0b000#3, fNumber, octave, c⟩) s = .next (s.takeFault id 0b000#3 (.operand .octave octave.toInt)))

/-- R131: SET_MULTIPLIER. -/
def Obligations.SetMultiplierResult : Prop :=
  ∀ (id : Nat) (mult b c : Word) (s : State),
    (∀ o, s.ops[id]? = some o → 1 ≤ mult.toInt →
      exec (decode ⟨id, 0b001#3, mult, b, c⟩) s = .next ((s.setOp id { o with multiplier := some mult }).complete none)) ∧
    (s.nOperators ≤ id →
      exec (decode ⟨id, 0b001#3, mult, b, c⟩) s = .next (s.takeFault id 0b001#3 (.operand .id id))) ∧
    (id < s.nOperators → mult.toInt < 1 →
      exec (decode ⟨id, 0b001#3, mult, b, c⟩) s = .next (s.takeFault id 0b001#3 (.operand .mult mult.toInt)))

/-- R132: SET_RECTIFY, from the tuple: the bit written is A[0]. -/
def Obligations.SetRectifyResult : Prop :=
  ∀ (id : Nat) (a b c : Word) (s : State),
    (∀ o, s.ops[id]? = some o →
      exec (decode ⟨id, 0b010#3, a, b, c⟩) s =
        .next ((s.setOp id { o with rectifyEnabled := some (a.getLsbD 0) }).complete none)) ∧
    (s.nOperators ≤ id →
      exec (decode ⟨id, 0b010#3, a, b, c⟩) s = .next (s.takeFault id 0b010#3 (.operand .id id)))

/-- R133: START writes 0 to the phase and the previous output; two in a row leave the operators as one does. -/
def Obligations.StartResult : Prop :=
  ∀ (id : Nat) (a b c a' b' c' : Word) (s : State),
    (∀ o, s.ops[id]? = some o →
      exec (decode ⟨id, 0b011#3, a, b, c⟩) s =
        .next ((s.setOp id { o with phase := some 0#20, previousOutput := some 0#21 }).complete none)) ∧
    (s.nOperators ≤ id → exec (decode ⟨id, 0b011#3, a, b, c⟩) s = .next (s.takeFault id 0b011#3 (.operand .id id))) ∧
    (∀ t u, exec (decode ⟨id, 0b011#3, a, b, c⟩) s = .next t →
      exec (decode ⟨id, 0b011#3, a', b', c'⟩) t = .next u → u.ops = t.ops)

/-- The frame of SET_FREQUENCY, SET_MULTIPLIER, SET_RECTIFY and START, in every case, a fault among them: the registers the
command does not name, every other instance, the ROMs, the progress bits and the observation are as before. -/
def Obligations.ConfigurationFrame : Prop :=
  ∀ (i : Instr) (s t : State), selectsOperator i = true → returnsResult i = false → exec i s = .next t →
    (∀ j, j ≠ i.id → t.ops[j]? = s.ops[j]?) ∧ t.ops.length = s.ops.length ∧
    (∀ o o', s.ops[i.id]? = some o → t.ops[i.id]? = some o' →
      (i.op ≠ 0b000#3 → o'.fNumber = o.fNumber ∧ o'.phaseIncrement = o.phaseIncrement) ∧
      (i.op ≠ 0b001#3 → o'.multiplier = o.multiplier) ∧
      (i.op ≠ 0b010#3 → o'.rectifyEnabled = o.rectifyEnabled) ∧
      (i.op ≠ 0b011#3 → o'.phase = o.phase ∧ o'.previousOutput = o.previousOutput)) ∧
    (∀ rom k, t.romRead rom k = s.romRead rom k) ∧
    t.exp = s.exp ∧ t.logSin = s.logSin ∧ t.fastExp = s.fastExp ∧
    t.expDone = s.expDone ∧ t.logSinDone = s.logSinDone ∧ t.fastExpDone = s.fastExpDone ∧
    t.romMode = s.romMode ∧ t.schedule = s.schedule ∧ t.observed = s.observed ∧
    (t.index ≠ s.index → t.fault = s.fault)

/-! ## Sampling -/

/-- R158 with R150 to R157, in the integers: FETCH_SAMPLE on an operator whose five registers are written, with the tables
ready and the dB sum in [0, 8191], completes with the result on Y, the phase advanced and the unsmoothed output kept. The
log-sine index is the rule's second form. -/
def Obligations.FetchSampleResult : Prop :=
  ∀ (id : Nat) (freqDiff vib ampDiff : Word) (s : State) (o : Operator) (phase inc : BitVec 20) (prev : BitVec 21)
    (mult : BitVec 32) (rect : Bool) (realPhase index db output : Int),
    s.ops[id]? = some o → o.phase = some phase → o.previousOutput = some prev → o.phaseIncrement = some inc →
    o.multiplier = some mult → o.rectifyEnabled = some rect → s.tablesReady = true → s.romsFilled →
    realPhase = ((phase.toNat : Int) / 4 + freqDiff.toInt) % 2 ^ 20 →
    index = (if realPhase / 2 ^ 16 % 2 = 0 then realPhase / 2 ^ 8 % 256 else 255 - realPhase / 2 ^ 8 % 256) →
    db = logSinContents index.toNat + ampDiff.toInt → 0 ≤ db → db ≤ 8191 →
    output = (if realPhase / 2 ^ 17 % 2 = 0 then (fastExpContents db.toNat : Int)
      else if rect = true then 0 else -(fastExpContents db.toNat : Int)) →
    exec (decode ⟨id, 0b100#3, freqDiff, vib, ampDiff⟩) s =
      .next ((s.setOp id { o with
        phase := some (BitVec.ofInt 20 (((phase.toNat : Int) + inc.toNat * mult.toNat + vib.toInt * mult.toNat) % 2 ^ 20))
        previousOutput := some (BitVec.ofInt 21 output) }).complete
          (some (BitVec.ofInt 32 ((output + prev.toInt) / 2))))

/-- R28: FETCH_SAMPLE raises UnwrittenFault for the first of its five registers that is ⊥, in the order of R201, whatever the
tables' readiness; SET_FREQUENCY, SET_MULTIPLIER, SET_RECTIFY and START never do. -/
def Obligations.UnwrittenRegisterFaults : Prop :=
  (∀ (id : Nat) (freqDiff vib ampDiff : Word) (s : State) (o : Operator), s.ops[id]? = some o →
    (o.phase = none →
      exec (.fetchSample id freqDiff vib ampDiff) s = .next (s.takeFault id 0b100#3 (.unwritten .phase))) ∧
    (o.phase ≠ none → o.previousOutput = none →
      exec (.fetchSample id freqDiff vib ampDiff) s = .next (s.takeFault id 0b100#3 (.unwritten .previousOutput))) ∧
    (o.phase ≠ none → o.previousOutput ≠ none → o.phaseIncrement = none →
      exec (.fetchSample id freqDiff vib ampDiff) s = .next (s.takeFault id 0b100#3 (.unwritten .phaseIncrement))) ∧
    (o.phase ≠ none → o.previousOutput ≠ none → o.phaseIncrement ≠ none → o.multiplier = none →
      exec (.fetchSample id freqDiff vib ampDiff) s = .next (s.takeFault id 0b100#3 (.unwritten .multiplier))) ∧
    (o.phase ≠ none → o.previousOutput ≠ none → o.phaseIncrement ≠ none → o.multiplier ≠ none →
      o.rectifyEnabled = none →
      exec (.fetchSample id freqDiff vib ampDiff) s = .next (s.takeFault id 0b100#3 (.unwritten .rectifyEnabled)))) ∧
  (∀ (i : Instr) (s t : State), selectsOperator i = true → returnsResult i = false → exec i s = .next t →
    t.fault = s.fault ∨ ∃ r, t.fault = some r ∧ r.kind = .operand)

/-- R154, its safe range marked as derived there: a dB sum outside [0, 8191] raises DomainFault with the sum, realPhase and
ampDiff, and changes no other state, and an ampDiff in [0, 6054] always keeps the sum inside. -/
def Obligations.DomainFaultOutsideTable : Prop :=
  (∀ (id : Nat) (freqDiff vib ampDiff : Word) (s : State) (o : Operator) (phase inc : BitVec 20) (prev : BitVec 21)
    (mult : BitVec 32) (rect : Bool) (db : Int),
    s.ops[id]? = some o → o.phase = some phase → o.previousOutput = some prev → o.phaseIncrement = some inc →
    o.multiplier = some mult → o.rectifyEnabled = some rect → s.tablesReady = true → s.romsFilled →
    db = (logSin (realPhaseOf phase freqDiff) : Int) + ampDiff.toInt → (db < 0 ∨ 8191 < db) →
    exec (.fetchSample id freqDiff vib ampDiff) s =
      .next (s.takeFault id 0b100#3 (.domain db (realPhaseOf phase freqDiff) ampDiff.toInt))) ∧
  (∀ (p : BitVec 20) (ampDiff : Word), 0 ≤ ampDiff.toInt → ampDiff.toInt ≤ 6054 →
    0 ≤ (logSin p : Int) + ampDiff.toInt ∧ (logSin p : Int) + ampDiff.toInt ≤ 8191)

/-- R154, R237: with ampDiff in [0, 6054] a FETCH_SAMPLE on a written operator never raises DomainFault: it completes with a
result, whatever freqDiff and vib are. -/
def Obligations.SafeAttenuationCompletes : Prop :=
  ∀ (id : Nat) (freqDiff vib ampDiff : Word) (s : State) (o : Operator),
    s.ops[id]? = some o → o.phase ≠ none → o.previousOutput ≠ none → o.phaseIncrement ≠ none → o.multiplier ≠ none →
    o.rectifyEnabled ≠ none → s.tablesReady = true → s.romsFilled → 0 ≤ ampDiff.toInt → ampDiff.toInt ≤ 6054 →
    ∃ t v, exec (.fetchSample id freqDiff vib ampDiff) s = .next t ∧ t.fault = s.fault ∧ t.y = some v ∧
      t.index = s.index + 1

/-- R160: the value ranges of a completed FETCH_SAMPLE, from a state that meets the invariant: the result is even, fits the
21-bit range, is exactly the mean of the new and the old unsmoothed output, and Y is its sign extension. -/
def Obligations.SampleValueRanges : Prop :=
  ∀ (id : Nat) (freqDiff vib ampDiff : Word) (s t : State) (o : Operator) (prev : BitVec 21),
    s.Inv → s.ops[id]? = some o → o.previousOutput = some prev → s.index < t.index →
    exec (.fetchSample id freqDiff vib ampDiff) s = .next t →
    ∃ (y : Word) (o' : Operator) (output : BitVec 21), t.y = some y ∧ t.ops[id]? = some o' ∧
      o'.previousOutput = some output ∧ output.toInt % 4 = 0 ∧
      (output.toInt = 0 ∨ (4096 ≤ output.toInt.natAbs ∧ output.toInt.natAbs ≤ 1045504)) ∧
      (o.rectifyEnabled = some false → output.toInt ≠ 0) ∧
      -1045504 ≤ y.toInt ∧ y.toInt ≤ 1045504 ∧ y.toInt % 2 = 0 ∧ 2 * y.toInt = output.toInt + prev.toInt

/-- R161, marked as derived there: the first FETCH_SAMPLE after START has no previous output to average with; for
freqDiff = 0 and ampDiff = 0 it returns 3210 whatever the configuration and vib are. -/
def Obligations.FirstSampleAfterStart : Prop :=
  ∀ (id : Nat) (freqDiff vib ampDiff : Word) (s t : State) (o : Operator),
    s.romsFilled → s.tablesReady = true → s.ops[id]? = some o → o.phaseIncrement ≠ none → o.multiplier ≠ none →
    o.rectifyEnabled ≠ none → exec (.start id) s = .next t →
    (∀ u, exec (.fetchSample id freqDiff vib ampDiff) t = .next u → u.index = t.index + 1 →
      ∃ (y : Word) (o' : Operator) (output : BitVec 21), u.y = some y ∧ u.ops[id]? = some o' ∧
        o'.previousOutput = some output ∧ y.toInt = output.toInt / 2) ∧
    (∃ u o', exec (.fetchSample id 0#32 vib 0#32) t = .next u ∧ u.y = some 3210#32 ∧ u.ops[id]? = some o' ∧
      o'.previousOutput = some 6420#21)

/-- R162, marked as derived there: the phase arithmetic gives the same at every width of at least 20 bits, then masked to 20. -/
def Obligations.PhaseWidthIndependent : Prop :=
  ∀ (w : Nat) (phase inc : BitVec 20) (mult freqDiff vib : BitVec 32), 20 ≤ w →
    realPhaseOf phase freqDiff =
      (BitVec.ofNat w (phase.toNat / 4) + BitVec.ofInt w freqDiff.toInt).setWidth 20 ∧
    phaseAdvance phase inc mult vib =
      (BitVec.ofNat w phase.toNat + BitVec.ofNat w inc.toNat * BitVec.ofNat w mult.toNat +
        BitVec.ofInt w vib.toInt * BitVec.ofNat w mult.toNat).setWidth 20

/-- R163, marked as derived there: the symmetries of the waveform, and where the source's off-by-one form of the first holds. -/
def Obligations.WaveformSymmetries : Prop :=
  (∀ p : Nat, p < 2 ^ 17 → logSin (BitVec.ofNat 20 p) = logSin (BitVec.ofNat 20 (0x1FFFF - p))) ∧
  (∀ p : BitVec 20, logSin p = logSin (p ^^^ 0x1FFFF#20)) ∧
  (∀ p : Nat, p < 2 ^ 17 → (p % 256 ≠ 0 ∨ p = 0 ∨ p = 0x10000) →
    logSin (BitVec.ofNat 20 p) = logSin (BitVec.ofNat 20 (2 ^ 17 - p))) ∧
  ((List.range 512).countP fun k =>
    logSin (BitVec.ofNat 20 (256 * k)) != logSin (BitVec.ofNat 20 (2 ^ 17 - 256 * k))) = 442 ∧
  (∀ p : BitVec 20, logSin p = logSin (p ^^^ 0x20000#20) ∧ negateOf p = !negateOf (p ^^^ 0x20000#20) ∧
    ∀ linear, signedOutput (negateOf p) false linear = -signedOutput (negateOf (p ^^^ 0x20000#20)) false linear) ∧
  (∀ p q : BitVec 20, p.toNat / 2 ^ 8 % 2 ^ 10 = q.toNat / 2 ^ 8 % 2 ^ 10 →
    logSin p = logSin q ∧ negateOf p = negateOf q)

/-- The frame of FETCH_SAMPLE in every case, a hold or a fault among them: the configuration registers of the instance,
every other instance, the ROMs and the progress bits are as before. -/
def Obligations.FetchSampleFrame : Prop :=
  ∀ (id : Nat) (freqDiff vib ampDiff : Word) (s t : State), exec (.fetchSample id freqDiff vib ampDiff) s = .next t →
    (∀ j, j ≠ id → t.ops[j]? = s.ops[j]?) ∧ t.ops.length = s.ops.length ∧
    (∀ o o', s.ops[id]? = some o → t.ops[id]? = some o' → o'.fNumber = o.fNumber ∧
      o'.phaseIncrement = o.phaseIncrement ∧ o'.multiplier = o.multiplier ∧ o'.rectifyEnabled = o.rectifyEnabled) ∧
    (∀ rom k, t.romRead rom k = s.romRead rom k) ∧
    t.exp = s.exp ∧ t.logSin = s.logSin ∧ t.fastExp = s.fastExp ∧
    t.expDone = s.expDone ∧ t.logSinDone = s.logSinDone ∧ t.fastExpDone = s.fastExpDone ∧
    t.romMode = s.romMode ∧ t.schedule = s.schedule ∧ (t.index ≠ s.index → t.fault = s.fault)

/-! ## Tables -/

/-- R109: DB_TO_LINEAR with db in [0, 8191] completes with dbToLinear(db) on Y once the tables are ready and is held before;
a db outside raises OperandFault, ready or not. -/
def Obligations.DbToLinearResult : Prop :=
  ∀ (id : Nat) (db b c : Word) (s : State), s.romsFilled →
    (0 ≤ db.toInt → db.toInt ≤ 8191 → s.tablesReady = true →
      exec (decode ⟨id, 0b101#3, db, b, c⟩) s = .next (s.complete (some (BitVec.ofNat 32
        ((1024 + expContents (255 - db.toNat % 256)) * 2 ^ (7 - min (db.toNat / 256) 7 + 2)))))) ∧
    (0 ≤ db.toInt → db.toInt ≤ 8191 → s.tablesReady = false →
      exec (decode ⟨id, 0b101#3, db, b, c⟩) s = .next s) ∧
    ((db.toInt < 0 ∨ 8191 < db.toInt) →
      exec (decode ⟨id, 0b101#3, db, b, c⟩) s = .next (s.takeFault id 0b101#3 (.operand .db db.toInt)))

/-- R110: READ_ROM; sel, then index, then the hold, then the word of the selected table. -/
def Obligations.ReadRomResult : Prop :=
  ∀ (id : Nat) (sel index c : Word) (rom : RomName) (s : State), s.romsFilled →
    (sel.toInt = (match rom with | .exp => 0 | .logSin => 1 | .fastExp => 2) → 0 ≤ index.toInt →
      index.toInt < romSize rom → s.tablesReady = true →
      exec (decode ⟨id, 0b110#3, sel, index, c⟩) s =
        .next (s.complete (some (BitVec.ofNat 32 (romContents rom index.toNat))))) ∧
    (sel.toInt = (match rom with | .exp => 0 | .logSin => 1 | .fastExp => 2) → 0 ≤ index.toInt →
      index.toInt < romSize rom → s.tablesReady = false → exec (decode ⟨id, 0b110#3, sel, index, c⟩) s = .next s) ∧
    (sel.toInt = (match rom with | .exp => 0 | .logSin => 1 | .fastExp => 2) →
      (index.toInt < 0 ∨ (romSize rom : Int) ≤ index.toInt) →
      exec (decode ⟨id, 0b110#3, sel, index, c⟩) s = .next (s.takeFault id 0b110#3 (.operand .index index.toInt))) ∧
    ((sel.toInt < 0 ∨ 2 < sel.toInt) →
      exec (decode ⟨id, 0b110#3, sel, index, c⟩) s = .next (s.takeFault id 0b110#3 (.operand .sel sel.toInt)))

/-- The frame of DB_TO_LINEAR, READ_ROM and the reserved selector: they write no operator, no ROM and no progress bit. -/
def Obligations.TableCommandFrame : Prop :=
  ∀ (i : Instr) (s t : State), selectsOperator i = false → exec i s = .next t →
    t.ops = s.ops ∧ (∀ rom k, t.romRead rom k = s.romRead rom k) ∧
    t.exp = s.exp ∧ t.logSin = s.logSin ∧ t.fastExp = s.fastExp ∧
    t.expDone = s.expDone ∧ t.logSinDone = s.logSinDone ∧ t.fastExpDone = s.fastExpDone ∧
    t.romMode = s.romMode ∧ t.schedule = s.schedule ∧ (t.index ≠ s.index → t.fault = s.fault)

/-- R108, marked as derived there: the five properties of FASTEXP. -/
def Obligations.FastExpLaws : Prop :=
  (∀ db, db + 1 ≤ 2047 → fastExpContents (db + 1) < fastExpContents db) ∧
  (∀ db, 1792 ≤ db → db ≤ 8191 → fastExpContents db = fastExpContents (1792 + db % 256)) ∧
  (∀ db, db ≤ 8191 → fastExpContents db % 4 = 0) ∧
  (∀ db, db ≤ 8191 → 4096 ≤ fastExpContents db ∧ fastExpContents db ≤ 1045504) ∧
  (∀ db, db ≤ 1791 → fastExpContents (db + 256) * 2 = fastExpContents db)

/-- R58, R62: `RomRead` answers a whole word of the ROM's width inside its index range, and nothing outside it. -/
def Obligations.RomReadWholeWord : Prop :=
  ∀ (s : State) (i : Nat),
    (∀ v, s.romRead .exp i = some v → i < 256 ∧ v < 2 ^ 10) ∧
    (∀ v, s.romRead .logSin i = some v → i < 256 ∧ v < 2 ^ 12) ∧
    (∀ v, s.romRead .fastExp i = some v → i < 8192 ∧ v < 2 ^ 20)

/-! ## The generator and the hold -/

/-- R100 to R104: from any state of the GENERATED realisation that meets the invariant, GEN_EXP and GEN_LOGSIN in either
order and then GEN_FASTEXP give the same state, with the tables ready and every word that of R51 to R53. -/
def Obligations.GeneratorFillsTables : Prop :=
  ∀ s : State, s.Inv → s.romMode = .generated →
    generatorTurn .genLogSin (generatorTurn .genExp s) = generatorTurn .genExp (generatorTurn .genLogSin s) ∧
    (generatorTurn .genFastExp (generatorTurn .genLogSin (generatorTurn .genExp s))).tablesReady = true ∧
    (∀ rom i, i < romSize rom →
      (generatorTurn .genFastExp (generatorTurn .genLogSin (generatorTurn .genExp s))).romRead rom i =
        some (romContents rom i))

/-- R100 to R104, R107: a generator turn changes only its own ROM and its own progress bit, and changes them exactly where
the step is enabled: a turn that is not enabled (any in PRECOMPUTED mode, a repeated step, GEN_FASTEXP before both slow tables
are done) changes nothing, and an enabled one sets its bit. -/
def Obligations.GeneratorTurnFrame : Prop :=
  ∀ (g : GenStep) (s : State),
    (generatorTurn g s).ops = s.ops ∧ (generatorTurn g s).fault = s.fault ∧ (generatorTurn g s).commands = s.commands ∧
    (generatorTurn g s).index = s.index ∧ (generatorTurn g s).y = s.y ∧ (generatorTurn g s).observed = s.observed ∧
    (generatorTurn g s).romMode = s.romMode ∧ (generatorTurn g s).schedule = s.schedule ∧
    (g ≠ .genExp → (generatorTurn g s).exp = s.exp ∧ (generatorTurn g s).expDone = s.expDone) ∧
    (g ≠ .genLogSin → (generatorTurn g s).logSin = s.logSin ∧ (generatorTurn g s).logSinDone = s.logSinDone) ∧
    (g ≠ .genFastExp → (generatorTurn g s).fastExp = s.fastExp ∧ (generatorTurn g s).fastExpDone = s.fastExpDone) ∧
    (s.romMode = .precomputed → generatorTurn g s = s) ∧
    (genEnabled g s = false → generatorTurn g s = s) ∧
    (s.expDone = true → generatorTurn .genExp s = s) ∧
    (s.logSinDone = true → generatorTurn .genLogSin s = s) ∧
    ((s.expDone = false ∨ s.logSinDone = false ∨ s.fastExpDone = true) → generatorTurn .genFastExp s = s) ∧
    (s.romMode = .generated → (g = .genFastExp → s.expDone = true ∧ s.logSinDone = true) →
      (g = .genExp → (generatorTurn g s).expDone = true) ∧ (g = .genLogSin → (generatorTurn g s).logSinDone = true) ∧
      (g = .genFastExp → (generatorTurn g s).fastExpDone = true))

/-- R59: no command writes a ROM; only an enabled step of the generator, in GENERATED mode on a core with no fault, changes
one, and a ROM whose progress bit is 1 is never written again. -/
def Obligations.OnlyGeneratorWritesRoms : Prop :=
  (∀ (i : Instr) (s t : State), exec i s = .next t → t.exp = s.exp ∧ t.logSin = s.logSin ∧ t.fastExp = s.fastExp) ∧
  (∀ s t : State, step s = .next t → (t.exp ≠ s.exp ∨ t.logSin ≠ s.logSin ∨ t.fastExp ≠ s.fastExp) →
    s.fault = none ∧ s.romMode = .generated ∧ ∃ g, nextTurn s = .generator g ∧ genEnabled g s = true) ∧
  (∀ s t : State, step s = .next t →
    (s.expDone = true → t.exp = s.exp) ∧ (s.logSinDone = true → t.logSin = s.logSin) ∧
    (s.fastExpDone = true → t.fastExp = s.fastExp))

/-- R34, R64: no step clears a progress bit, and once the tables are ready no step changes what any ROM reads as. -/
def Obligations.ReadyTablesStayConstant : Prop :=
  ∀ s t : State, step s = .next t →
    (s.expDone = true → t.expDone = true) ∧ (s.logSinDone = true → t.logSinDone = true) ∧
    (s.fastExpDone = true → t.fastExpDone = true) ∧
    (s.tablesReady = true → t.tablesReady = true ∧ ∀ rom i, t.romRead rom i = s.romRead rom i)

/-- R105: with the tables not ready, a FETCH_SAMPLE, DB_TO_LINEAR or READ_ROM that passes the checks before the hold takes no
step, and SET_FREQUENCY, SET_MULTIPLIER, SET_RECTIFY and START that pass theirs complete. -/
def Obligations.RomReadersAreHeld : Prop :=
  ∀ (i : Instr) (s : State), s.tablesReady = false → i.admitted s.nOperators = true →
    (returnsResult i = true →
      (∀ o, selectsOperator i = true → s.ops[i.id]? = some o → o.phase ≠ none ∧ o.previousOutput ≠ none ∧
        o.phaseIncrement ≠ none ∧ o.multiplier ≠ none ∧ o.rectifyEnabled ≠ none) →
      exec i s = .next s) ∧
    (returnsResult i = false → ∃ t, exec i s = .next t ∧ t.fault = s.fault ∧ t.index = s.index + 1)

/-- R100, R105, R238: no hold lasts. From every state that meets the invariant, has no fault (a faulted core takes no step, R203)
and whose turns are left to the default choice (log 4: an enabled generator step first), at most three steps later the
tables are ready, with no command taken, every operator and the stream as before. -/
def Obligations.HoldLiftsWithinThreeSteps : Prop :=
  ∀ s : State, s.Inv → s.fault = none → s.schedule = [] →
    ∃ k t, k ≤ 3 ∧ Host.Core.run core k s = .next t ∧ t.tablesReady = true ∧ t.commands = s.commands ∧
      t.index = s.index ∧ t.ops = s.ops ∧ t.fault = s.fault ∧ t.observed = s.observed

/-! ## Faults -/

/-- R86: OP = 111 raises IllegalOperationFault whatever the other inputs hold and changes no other state; no other OP is
reserved. -/
def Obligations.ReservedSelectorFaults : Prop :=
  (∀ (id : Nat) (a b c : Word) (s : State),
    exec (decode ⟨id, 0b111#3, a, b, c⟩) s = .next (s.takeFault id 0b111#3 (.op 0b111#3))) ∧
  (∀ (id : Nat) (s : State), exec (.reserved id) s = .next (s.takeFault id 0b111#3 (.op 0b111#3))) ∧
  (∀ c : Command, c.op ≠ 0b111#3 → ∀ id, decode c ≠ .reserved id)

/-- R82: an ID that is no instance raises OperandFault for it in every command that selects an instance, before any other
operand is looked at and whether or not the tables are ready. -/
def Obligations.MissingInstanceFaults : Prop :=
  ∀ (i : Instr) (s : State), selectsOperator i = true → s.nOperators ≤ i.id →
    exec i s = .next (s.takeFault i.id i.op (.operand .id i.id))

/-- R202, R201: what a fault records. -/
def Obligations.FaultRecordContents : Prop :=
  ∀ (i : Instr) (s t : State) (r : FaultRecord), s.fault = none → exec i s = .next t → t.fault = some r →
    r.id = i.id ∧ r.op = i.op ∧ r.index = s.index ∧
    ((∃ v, r.info = .op v ∧ r.kind = .illegalOperation ∧ r.code = 1) ∨
     (∃ w v, r.info = .operand w v ∧ r.kind = .operand ∧ r.code = 2) ∨
     (∃ f, r.info = .unwritten f ∧ r.kind = .unwritten ∧ r.code = 3) ∨
     (∃ d p a, r.info = .domain d p a ∧ r.kind = .domain ∧ r.code = 4))

/-- R203: a fault is precise (nothing but the record is written and Y is not driven), sticky (a generator turn, a command
issued by the host, turns chosen for the agents and a driven command leave the record, and no command clears it) and halting:
a faulted core takes no further step, neither a command nor a generator step, whatever the host issues and whoever's turn it
is. Its steps end by name, the model's form of the halt (log 2). Such a core has not ended normally. -/
def Obligations.FaultPreciseStickyHalting : Prop :=
  (∀ (i : Instr) (s t : State), s.fault = none → exec i s = .next t → t.fault ≠ none →
    t = { s with fault := t.fault, y := none }) ∧
  (∀ (s : State) (r : FaultRecord), s.fault = some r →
    (∀ g, (generatorTurn g s).fault = some r) ∧ (∀ c, (s.issue c).fault = some r) ∧
    (∀ nbits w, (s.withFetchWord nbits w).fault = some r) ∧
    (∀ i t, exec i s = .next t → t.fault ≠ none)) ∧
  (∀ (s : State) (r : FaultRecord), s.fault = some r →
    step s = .fault (.coreFaulted r.kind) ∧
    (∀ (cs : List Command) (ts : List Turn),
      step { s with commands := cs, schedule := ts } = .fault (.coreFaulted r.kind)) ∧
    (∀ nbits w, step (s.withFetchWord nbits w) = .fault (.coreFaulted r.kind)) ∧
    (∀ k, Host.Core.run core (k + 1) s = .fault (.coreFaulted r.kind))) ∧
  (∀ (s : State) (r : FaultRecord), s.fault = some r → ¬ s.endedNormally)

/-- R204: the order of the checks, whatever the later conditions are. -/
def Obligations.FaultOrder : Prop :=
  (∀ (id : Nat) (a b c : Word) (s : State),
    exec (decode ⟨id, 0b111#3, a, b, c⟩) s = .next (s.takeFault id 0b111#3 (.op 0b111#3))) ∧
  (∀ (i : Instr) (s : State), selectsOperator i = true → s.nOperators ≤ i.id →
    exec i s = .next (s.takeFault i.id i.op (.operand .id i.id))) ∧
  (∀ (id : Nat) (sel index : Word) (s : State), (sel.toInt < 0 ∨ 2 < sel.toInt) →
    exec (.readRom id sel index) s = .next (s.takeFault id 0b110#3 (.operand .sel sel.toInt))) ∧
  (∀ (i : Instr) (s : State), i.admitted s.nOperators = false → (∀ id, i ≠ .reserved id) →
    ∃ which value, exec i s = .next (s.takeFault i.id i.op (.operand which value))) ∧
  (∀ (id : Nat) (freqDiff vib ampDiff : Word) (s : State) (o : Operator), s.ops[id]? = some o →
    (o.phase = none ∨ o.previousOutput = none ∨ o.phaseIncrement = none ∨ o.multiplier = none ∨
      o.rectifyEnabled = none) →
    ∃ f, exec (.fetchSample id freqDiff vib ampDiff) s = .next (s.takeFault id 0b100#3 (.unwritten f))) ∧
  (∀ (i : Instr) (s t : State) (r : FaultRecord), s.tablesReady = false → s.fault = none → exec i s = .next t →
    t.fault = some r → r.kind ≠ .domain)

/-- R90, R201: every command has an outcome in every state: `exec` never stops the machine and never refuses. -/
def Obligations.EveryCommandHasItsNextState : Prop :=
  ∀ (i : Instr) (s : State), ∃ t, exec i s = .next t ∧
    (t = s ∨ (∃ r, t.fault = some r ∧ r.index = s.index ∧ r.op = i.op) ∨ t.index = s.index + 1)

/-! ## The machine as a whole -/

/-- R80: a step in which the command unit has its turn runs the command at the head of the stream (`exec` of the decoded
tuple, on the state whose turn is used up). The stream and the turns as fields of the state, and with them the third clause,
are the model's choice, not R80's: `withFetchWord` stands for the host driving a command (log 5, DESIGN CHOICE), its word is
the model's command image (log 6, DESIGN CHOICE), and it gives the command unit the next turn (log 4, DESIGN CHOICE). -/
def Obligations.StepRunsDecodedCommand : Prop :=
  (∀ (s : State) (c : Command) (rest : List Command), s.fault = none → nextTurn s = .commandUnit →
    s.commands = c :: rest → step s = exec (decode c) { s with schedule := s.schedule.tail }) ∧
  (∀ (s : State) (i : Instr) (rest : List Command), s.fault = none → nextTurn s = .commandUnit →
    s.commands = encode i :: rest → step s = exec i { s with schedule := s.schedule.tail }) ∧
  (∀ (s : State) (nbits w : Nat) (i : Instr), s.fault = none → decodeTableWord nbits w = some i →
    ∃ c, decode c = i ∧ step (s.withFetchWord nbits w) = exec i { s with commands := c :: s.commands.tail })

/-- R80, R84, R240: the stream is executed in order. A step leaves the stream and the position as they are, or takes exactly
the head command off; the observation grows by the Y of that command, or not at all. -/
def Obligations.CommandsExecuteInOrder : Prop :=
  ∀ s t : State, step s = .next t →
    (t.commands = s.commands ∧ t.index = s.index ∧ t.observed = s.observed) ∨
    (t.commands = s.commands.tail ∧ t.index = s.index + 1 ∧
      (t.observed = s.observed ∧ t.y = none ∨ ∃ v, t.y = some v ∧ t.observed = s.observed ++ [v]))

/-- R84: a command that completes drives Y exactly if it is a FETCH_SAMPLE, DB_TO_LINEAR or READ_ROM, and a faulting command
does not drive it. -/
def Obligations.ResultPortDrivenByResultCommands : Prop :=
  ∀ (i : Instr) (s t : State), exec i s = .next t →
    (t.index = s.index + 1 → (t.y ≠ none ↔ returnsResult i = true)) ∧
    (s.fault = none → t.fault ≠ none → t.y = none)

/-- R232, R240: with no command pending and no fault, the command unit's turn waits: nothing but the turn is used up. -/
def Obligations.IdleCoreWaits : Prop :=
  ∀ s : State, s.endedNormally → nextTurn s = .commandUnit → step s = .next { s with schedule := s.schedule.tail }

/-- R64, R209: instances share no writable state. With the tables ready, two commands that do not select the same instance
leave the same operators in either order, and each drives the same Y. -/
def Obligations.InstancesAreIndependent : Prop :=
  ∀ (i j : Instr) (s t u t' u' : State), s.tablesReady = true →
    (selectsOperator i = true → selectsOperator j = true → i.id ≠ j.id) →
    exec i s = .next t → exec j t = .next u → exec j s = .next t' → exec i t' = .next u' →
    u.ops = u'.ops ∧ t.y = u'.y ∧ u.y = t'.y

/-- R22, R24, R36: no step can tell two states apart that differ only in raw F-numbers and in multiplier bits above bit 19:
they give next states that again differ only so, with the same Y and observation, or the same stop. -/
def Obligations.StepDependsOnlyOnView : Prop :=
  ∀ s t : State, s.view = t.view → sameView (step s) (step t)

/-- The two realisations give the same run, a sentence that 00_scope.md R5 marks as derived from R105 and R53. For every
host sequence, every number of instances and every choice of turns, whatever a GENERATED core reaches, a PRECOMPUTED core
reaches with the same operators, fault record, position, Y and observation, in at most as many steps; and the PRECOMPUTED
core's k-step state is reached by the GENERATED core in k + 3 steps under the default turns, the three generator steps first,
which are the model's choice (log 4). -/
def Obligations.RealisationsAgree : Prop :=
  ∀ (n : Nat) (cs : List Command), 1 ≤ n →
    (∀ (ts : List Turn) (k : Nat) (t : State),
      Host.Core.run core k { State.powerOn .generated n with commands := cs, schedule := ts } = .next t →
      ∃ k' u, k' ≤ k ∧ Host.Core.run core k' { State.powerOn .precomputed n with commands := cs } = .next u ∧
        SameRun t u) ∧
    (∀ (k : Nat) (u : State),
      Host.Core.run core k { State.powerOn .precomputed n with commands := cs } = .next u →
      ∃ t, Host.Core.run core (k + 3) { State.powerOn .generated n with commands := cs } = .next t ∧ SameRun t u)
end

