-- ==== Sys2Proof/Laws/State.lean ====
section
/-! SUPPORT. What each change of the state does to each field. -/

namespace Sys2Proof.Machine

/-! ## setOp -/

@[simp] theorem State.setOp_romMode (s : State) (id : Nat) (o : Operator) : (s.setOp id o).romMode = s.romMode := rfl
@[simp] theorem State.setOp_exp (s : State) (id : Nat) (o : Operator) : (s.setOp id o).exp = s.exp := rfl
@[simp] theorem State.setOp_logSin (s : State) (id : Nat) (o : Operator) : (s.setOp id o).logSin = s.logSin := rfl
@[simp] theorem State.setOp_fastExp (s : State) (id : Nat) (o : Operator) : (s.setOp id o).fastExp = s.fastExp := rfl
@[simp] theorem State.setOp_expDone (s : State) (id : Nat) (o : Operator) : (s.setOp id o).expDone = s.expDone := rfl
@[simp] theorem State.setOp_logSinDone (s : State) (id : Nat) (o : Operator) : (s.setOp id o).logSinDone = s.logSinDone := rfl
@[simp] theorem State.setOp_fastExpDone (s : State) (id : Nat) (o : Operator) : (s.setOp id o).fastExpDone = s.fastExpDone := rfl
@[simp] theorem State.setOp_ops (s : State) (id : Nat) (o : Operator) : (s.setOp id o).ops = s.ops.set id o := rfl
@[simp] theorem State.setOp_fault (s : State) (id : Nat) (o : Operator) : (s.setOp id o).fault = s.fault := rfl
@[simp] theorem State.setOp_commands (s : State) (id : Nat) (o : Operator) : (s.setOp id o).commands = s.commands := rfl
@[simp] theorem State.setOp_index (s : State) (id : Nat) (o : Operator) : (s.setOp id o).index = s.index := rfl
@[simp] theorem State.setOp_y (s : State) (id : Nat) (o : Operator) : (s.setOp id o).y = s.y := rfl
@[simp] theorem State.setOp_observed (s : State) (id : Nat) (o : Operator) : (s.setOp id o).observed = s.observed := rfl
@[simp] theorem State.setOp_schedule (s : State) (id : Nat) (o : Operator) : (s.setOp id o).schedule = s.schedule := rfl

/-! ## complete -/

@[simp] theorem State.complete_romMode (s : State) (v : Option Word) : (s.complete v).romMode = s.romMode := rfl
@[simp] theorem State.complete_exp (s : State) (v : Option Word) : (s.complete v).exp = s.exp := rfl
@[simp] theorem State.complete_logSin (s : State) (v : Option Word) : (s.complete v).logSin = s.logSin := rfl
@[simp] theorem State.complete_fastExp (s : State) (v : Option Word) : (s.complete v).fastExp = s.fastExp := rfl
@[simp] theorem State.complete_expDone (s : State) (v : Option Word) : (s.complete v).expDone = s.expDone := rfl
@[simp] theorem State.complete_logSinDone (s : State) (v : Option Word) : (s.complete v).logSinDone = s.logSinDone := rfl
@[simp] theorem State.complete_fastExpDone (s : State) (v : Option Word) : (s.complete v).fastExpDone = s.fastExpDone := rfl
@[simp] theorem State.complete_ops (s : State) (v : Option Word) : (s.complete v).ops = s.ops := rfl
@[simp] theorem State.complete_fault (s : State) (v : Option Word) : (s.complete v).fault = s.fault := rfl
@[simp] theorem State.complete_commands (s : State) (v : Option Word) : (s.complete v).commands = s.commands.tail := rfl
@[simp] theorem State.complete_index (s : State) (v : Option Word) : (s.complete v).index = s.index + 1 := rfl
@[simp] theorem State.complete_y (s : State) (v : Option Word) : (s.complete v).y = v := rfl
@[simp] theorem State.complete_observed (s : State) (v : Option Word) : (s.complete v).observed = s.observed ++ v.toList := rfl
@[simp] theorem State.complete_schedule (s : State) (v : Option Word) : (s.complete v).schedule = s.schedule := rfl

/-! ## takeFault -/

@[simp] theorem State.takeFault_romMode (s : State) (id : Nat) (op : Opcode) (info : FaultInfo) : (s.takeFault id op info).romMode = s.romMode := rfl
@[simp] theorem State.takeFault_exp (s : State) (id : Nat) (op : Opcode) (info : FaultInfo) : (s.takeFault id op info).exp = s.exp := rfl
@[simp] theorem State.takeFault_logSin (s : State) (id : Nat) (op : Opcode) (info : FaultInfo) : (s.takeFault id op info).logSin = s.logSin := rfl
@[simp] theorem State.takeFault_fastExp (s : State) (id : Nat) (op : Opcode) (info : FaultInfo) : (s.takeFault id op info).fastExp = s.fastExp := rfl
@[simp] theorem State.takeFault_expDone (s : State) (id : Nat) (op : Opcode) (info : FaultInfo) : (s.takeFault id op info).expDone = s.expDone := rfl
@[simp] theorem State.takeFault_logSinDone (s : State) (id : Nat) (op : Opcode) (info : FaultInfo) : (s.takeFault id op info).logSinDone = s.logSinDone := rfl
@[simp] theorem State.takeFault_fastExpDone (s : State) (id : Nat) (op : Opcode) (info : FaultInfo) : (s.takeFault id op info).fastExpDone = s.fastExpDone := rfl
@[simp] theorem State.takeFault_ops (s : State) (id : Nat) (op : Opcode) (info : FaultInfo) : (s.takeFault id op info).ops = s.ops := rfl
@[simp] theorem State.takeFault_fault (s : State) (id : Nat) (op : Opcode) (info : FaultInfo) : (s.takeFault id op info).fault = some ⟨info.kind, info.kind.code, id, op, info, s.index⟩ := rfl
@[simp] theorem State.takeFault_commands (s : State) (id : Nat) (op : Opcode) (info : FaultInfo) : (s.takeFault id op info).commands = s.commands := rfl
@[simp] theorem State.takeFault_index (s : State) (id : Nat) (op : Opcode) (info : FaultInfo) : (s.takeFault id op info).index = s.index := rfl
@[simp] theorem State.takeFault_y (s : State) (id : Nat) (op : Opcode) (info : FaultInfo) : (s.takeFault id op info).y = none := rfl
@[simp] theorem State.takeFault_observed (s : State) (id : Nat) (op : Opcode) (info : FaultInfo) : (s.takeFault id op info).observed = s.observed := rfl
@[simp] theorem State.takeFault_schedule (s : State) (id : Nat) (op : Opcode) (info : FaultInfo) : (s.takeFault id op info).schedule = s.schedule := rfl

/-! ## issue -/

@[simp] theorem State.issue_romMode (s : State) (c : Command) : (s.issue c).romMode = s.romMode := rfl
@[simp] theorem State.issue_exp (s : State) (c : Command) : (s.issue c).exp = s.exp := rfl
@[simp] theorem State.issue_logSin (s : State) (c : Command) : (s.issue c).logSin = s.logSin := rfl
@[simp] theorem State.issue_fastExp (s : State) (c : Command) : (s.issue c).fastExp = s.fastExp := rfl
@[simp] theorem State.issue_expDone (s : State) (c : Command) : (s.issue c).expDone = s.expDone := rfl
@[simp] theorem State.issue_logSinDone (s : State) (c : Command) : (s.issue c).logSinDone = s.logSinDone := rfl
@[simp] theorem State.issue_fastExpDone (s : State) (c : Command) : (s.issue c).fastExpDone = s.fastExpDone := rfl
@[simp] theorem State.issue_ops (s : State) (c : Command) : (s.issue c).ops = s.ops := rfl
@[simp] theorem State.issue_fault (s : State) (c : Command) : (s.issue c).fault = s.fault := rfl
@[simp] theorem State.issue_commands (s : State) (c : Command) : (s.issue c).commands = s.commands ++ [c] := rfl
@[simp] theorem State.issue_index (s : State) (c : Command) : (s.issue c).index = s.index := rfl
@[simp] theorem State.issue_y (s : State) (c : Command) : (s.issue c).y = s.y := rfl
@[simp] theorem State.issue_observed (s : State) (c : Command) : (s.issue c).observed = s.observed := rfl
@[simp] theorem State.issue_schedule (s : State) (c : Command) : (s.issue c).schedule = s.schedule := rfl

/-! ## dropTurn -/

@[simp] theorem dropTurn_romMode (s : State) : (dropTurn s).romMode = s.romMode := rfl
@[simp] theorem dropTurn_exp (s : State) : (dropTurn s).exp = s.exp := rfl
@[simp] theorem dropTurn_logSin (s : State) : (dropTurn s).logSin = s.logSin := rfl
@[simp] theorem dropTurn_fastExp (s : State) : (dropTurn s).fastExp = s.fastExp := rfl
@[simp] theorem dropTurn_expDone (s : State) : (dropTurn s).expDone = s.expDone := rfl
@[simp] theorem dropTurn_logSinDone (s : State) : (dropTurn s).logSinDone = s.logSinDone := rfl
@[simp] theorem dropTurn_fastExpDone (s : State) : (dropTurn s).fastExpDone = s.fastExpDone := rfl
@[simp] theorem dropTurn_ops (s : State) : (dropTurn s).ops = s.ops := rfl
@[simp] theorem dropTurn_fault (s : State) : (dropTurn s).fault = s.fault := rfl
@[simp] theorem dropTurn_commands (s : State) : (dropTurn s).commands = s.commands := rfl
@[simp] theorem dropTurn_index (s : State) : (dropTurn s).index = s.index := rfl
@[simp] theorem dropTurn_y (s : State) : (dropTurn s).y = s.y := rfl
@[simp] theorem dropTurn_observed (s : State) : (dropTurn s).observed = s.observed := rfl
@[simp] theorem dropTurn_schedule (s : State) : (dropTurn s).schedule = s.schedule.tail := rfl

/-! ## driveNext -/

@[simp] theorem driveNext_romMode (s : State) (c : Command) : (driveNext s c).romMode = s.romMode := rfl
@[simp] theorem driveNext_exp (s : State) (c : Command) : (driveNext s c).exp = s.exp := rfl
@[simp] theorem driveNext_logSin (s : State) (c : Command) : (driveNext s c).logSin = s.logSin := rfl
@[simp] theorem driveNext_fastExp (s : State) (c : Command) : (driveNext s c).fastExp = s.fastExp := rfl
@[simp] theorem driveNext_expDone (s : State) (c : Command) : (driveNext s c).expDone = s.expDone := rfl
@[simp] theorem driveNext_logSinDone (s : State) (c : Command) : (driveNext s c).logSinDone = s.logSinDone := rfl
@[simp] theorem driveNext_fastExpDone (s : State) (c : Command) : (driveNext s c).fastExpDone = s.fastExpDone := rfl
@[simp] theorem driveNext_ops (s : State) (c : Command) : (driveNext s c).ops = s.ops := rfl
@[simp] theorem driveNext_fault (s : State) (c : Command) : (driveNext s c).fault = s.fault := rfl
@[simp] theorem driveNext_commands (s : State) (c : Command) : (driveNext s c).commands = c :: s.commands.tail := rfl
@[simp] theorem driveNext_index (s : State) (c : Command) : (driveNext s c).index = s.index := rfl
@[simp] theorem driveNext_y (s : State) (c : Command) : (driveNext s c).y = s.y := rfl
@[simp] theorem driveNext_observed (s : State) (c : Command) : (driveNext s c).observed = s.observed := rfl
@[simp] theorem driveNext_schedule (s : State) (c : Command) : (driveNext s c).schedule = .commandUnit :: s.schedule := rfl

/-! ## genExp -/

@[simp] theorem genExp_romMode (s : State) : (genExp s).romMode = s.romMode := rfl
@[simp] theorem genExp_logSin (s : State) : (genExp s).logSin = s.logSin := rfl
@[simp] theorem genExp_fastExp (s : State) : (genExp s).fastExp = s.fastExp := rfl
@[simp] theorem genExp_expDone (s : State) : (genExp s).expDone = true := rfl
@[simp] theorem genExp_logSinDone (s : State) : (genExp s).logSinDone = s.logSinDone := rfl
@[simp] theorem genExp_fastExpDone (s : State) : (genExp s).fastExpDone = s.fastExpDone := rfl
@[simp] theorem genExp_ops (s : State) : (genExp s).ops = s.ops := rfl
@[simp] theorem genExp_fault (s : State) : (genExp s).fault = s.fault := rfl
@[simp] theorem genExp_commands (s : State) : (genExp s).commands = s.commands := rfl
@[simp] theorem genExp_index (s : State) : (genExp s).index = s.index := rfl
@[simp] theorem genExp_y (s : State) : (genExp s).y = s.y := rfl
@[simp] theorem genExp_observed (s : State) : (genExp s).observed = s.observed := rfl
@[simp] theorem genExp_schedule (s : State) : (genExp s).schedule = s.schedule := rfl

/-! ## genLogSin -/

@[simp] theorem genLogSin_romMode (s : State) : (genLogSin s).romMode = s.romMode := rfl
@[simp] theorem genLogSin_exp (s : State) : (genLogSin s).exp = s.exp := rfl
@[simp] theorem genLogSin_fastExp (s : State) : (genLogSin s).fastExp = s.fastExp := rfl
@[simp] theorem genLogSin_expDone (s : State) : (genLogSin s).expDone = s.expDone := rfl
@[simp] theorem genLogSin_logSinDone (s : State) : (genLogSin s).logSinDone = true := rfl
@[simp] theorem genLogSin_fastExpDone (s : State) : (genLogSin s).fastExpDone = s.fastExpDone := rfl
@[simp] theorem genLogSin_ops (s : State) : (genLogSin s).ops = s.ops := rfl
@[simp] theorem genLogSin_fault (s : State) : (genLogSin s).fault = s.fault := rfl
@[simp] theorem genLogSin_commands (s : State) : (genLogSin s).commands = s.commands := rfl
@[simp] theorem genLogSin_index (s : State) : (genLogSin s).index = s.index := rfl
@[simp] theorem genLogSin_y (s : State) : (genLogSin s).y = s.y := rfl
@[simp] theorem genLogSin_observed (s : State) : (genLogSin s).observed = s.observed := rfl
@[simp] theorem genLogSin_schedule (s : State) : (genLogSin s).schedule = s.schedule := rfl

/-! ## genFastExp -/

@[simp] theorem genFastExp_romMode (s : State) : (genFastExp s).romMode = s.romMode := rfl
@[simp] theorem genFastExp_exp (s : State) : (genFastExp s).exp = s.exp := rfl
@[simp] theorem genFastExp_logSin (s : State) : (genFastExp s).logSin = s.logSin := rfl
@[simp] theorem genFastExp_expDone (s : State) : (genFastExp s).expDone = s.expDone := rfl
@[simp] theorem genFastExp_logSinDone (s : State) : (genFastExp s).logSinDone = s.logSinDone := rfl
@[simp] theorem genFastExp_fastExpDone (s : State) : (genFastExp s).fastExpDone = true := rfl
@[simp] theorem genFastExp_ops (s : State) : (genFastExp s).ops = s.ops := rfl
@[simp] theorem genFastExp_fault (s : State) : (genFastExp s).fault = s.fault := rfl
@[simp] theorem genFastExp_commands (s : State) : (genFastExp s).commands = s.commands := rfl
@[simp] theorem genFastExp_index (s : State) : (genFastExp s).index = s.index := rfl
@[simp] theorem genFastExp_y (s : State) : (genFastExp s).y = s.y := rfl
@[simp] theorem genFastExp_observed (s : State) : (genFastExp s).observed = s.observed := rfl
@[simp] theorem genFastExp_schedule (s : State) : (genFastExp s).schedule = s.schedule := rfl

/-! ## Derived reads -/

@[simp] theorem State.setOp_romRead (s : State) (id : Nat) (o : Operator) (rom : RomName) (i : Nat) :
    (s.setOp id o).romRead rom i = s.romRead rom i := rfl
@[simp] theorem State.complete_romRead (s : State) (v : Option Word) (rom : RomName) (i : Nat) :
    (s.complete v).romRead rom i = s.romRead rom i := rfl
@[simp] theorem State.takeFault_romRead (s : State) (id : Nat) (op : Opcode) (info : FaultInfo) (rom : RomName) (i : Nat) :
    (s.takeFault id op info).romRead rom i = s.romRead rom i := rfl
@[simp] theorem dropTurn_romRead (s : State) (rom : RomName) (i : Nat) :
    (dropTurn s).romRead rom i = s.romRead rom i := rfl
@[simp] theorem State.setOp_tablesReady (s : State) (id : Nat) (o : Operator) :
    (s.setOp id o).tablesReady = s.tablesReady := rfl
@[simp] theorem State.complete_tablesReady (s : State) (v : Option Word) :
    (s.complete v).tablesReady = s.tablesReady := rfl
@[simp] theorem State.takeFault_tablesReady (s : State) (id : Nat) (op : Opcode) (info : FaultInfo) :
    (s.takeFault id op info).tablesReady = s.tablesReady := rfl
@[simp] theorem dropTurn_tablesReady (s : State) : (dropTurn s).tablesReady = s.tablesReady := rfl
@[simp] theorem State.setOp_nOperators (s : State) (id : Nat) (o : Operator) :
    (s.setOp id o).nOperators = s.nOperators := by simp [State.nOperators]
@[simp] theorem State.complete_nOperators (s : State) (v : Option Word) :
    (s.complete v).nOperators = s.nOperators := rfl
@[simp] theorem State.takeFault_nOperators (s : State) (id : Nat) (op : Opcode) (info : FaultInfo) :
    (s.takeFault id op info).nOperators = s.nOperators := rfl

/-- A ROM read depends on the ROM's cells and on the realisation alone. -/
theorem romRead_congr {s t : State} (hm : t.romMode = s.romMode) (he : t.exp = s.exp) (hl : t.logSin = s.logSin)
    (hf : t.fastExp = s.fastExp) (rom : RomName) (i : Nat) : t.romRead rom i = s.romRead rom i := by
  cases rom <;> simp only [State.romRead, hm, he, hl, hf]

theorem ops_none_iff (s : State) (id : Nat) : s.ops[id]? = none ↔ s.nOperators ≤ id := by
  simp [State.nOperators]

end Sys2Proof.Machine
end

