-- ==== Sys2Proof/Laws/Exec.lean ====
section
/-! SUPPORT. What the execution of a command can do, said once: it raises a fault, is held, completes a table read, or
writes one operator and completes. -/

namespace Sys2Proof.Machine

theorem withOperator_some {s : State} {id : Nat} {o : Operator} (op : Opcode) (k : Operator → Result)
    (h : s.ops[id]? = some o) : withOperator s id op k = k o := by simp only [withOperator, h]

theorem withOperator_none {s : State} {id : Nat} (op : Opcode) (k : Operator → Result) (h : s.nOperators ≤ id) :
    withOperator s id op k = .next (s.takeFault id op (.operand .id id)) := by
  simp only [withOperator, (ops_none_iff s id).mpr h, raise]

/-- The outcomes of a command, with what each implies. -/
inductive ExecShape (i : Instr) (s : State) : State → Prop where
  | raised (info : FaultInfo) : ExecShape i s (s.takeFault i.id i.op info)
  | held (hr : returnsResult i = true) (hs : s.tablesReady = false) : ExecShape i s s
  | read (hr : returnsResult i = true) (ho : selectsOperator i = false) (hs : s.tablesReady = true) (v : Word) :
      ExecShape i s (s.complete (some v))
  | wrote (ho : selectsOperator i = true) (o o' : Operator) (h : s.ops[i.id]? = some o) (v : Option Word)
      (hv : v.isSome = returnsResult i) : ExecShape i s ((s.setOp i.id o').complete v)

theorem finishRead_shape {i : Instr} {s t : State} {rom : RomName} {k : Nat} (hr : returnsResult i = true)
    (ho : selectsOperator i = false) (h : finishRead s i.id i.op rom k = .next t) : ExecShape i s t := by
  unfold finishRead raise hold at h
  split at h
  · split at h
    · cases h
      exact .raised _
    · cases h
      exact .read hr ho ‹_› _
  · cases h
    exact .held hr (by simpa using ‹¬s.tablesReady = true›)

theorem exec_shape {i : Instr} {s t : State} (h : exec i s = .next t) : ExecShape i s t := by
  have absent {id : Nat} {op : Opcode} {k : Operator → Result} (hi : id = i.id) (hop : op = i.op)
      (h : withOperator s id op k = .next t)
      (hk : ∀ o, s.ops[i.id]? = some o → k o = .next t → ExecShape i s t) : ExecShape i s t := by
    subst hi hop
    cases ho : s.ops[i.id]? with
    | none =>
      rw [withOperator_none _ _ ((ops_none_iff s _).mp ho)] at h
      cases h
      exact .raised _
    | some o => exact hk o ho (by rwa [withOperator_some _ _ ho] at h)
  cases i with
  | setFrequency id f oct =>
    refine absent rfl rfl h fun o ho hk => ?_
    split at hk <;> cases hk
    · exact .raised _
    · exact .wrote rfl o _ ho none rfl
  | setMultiplier id m =>
    refine absent rfl rfl h fun o ho hk => ?_
    split at hk <;> cases hk
    · exact .raised _
    · exact .wrote rfl o _ ho none rfl
  | setRectify id e =>
    refine absent rfl rfl h fun o ho hk => ?_
    cases hk
    exact .wrote rfl o _ ho none rfl
  | start id =>
    refine absent rfl rfl h fun o ho hk => ?_
    cases hk
    exact .wrote rfl o _ ho none rfl
  | fetchSample id fd vib ad =>
    refine absent rfl rfl h fun o ho hk => ?_
    unfold sampleLookup finishSample raise hold at hk
    split at hk
    · cases hk
      exact .raised _
    · split at hk
      · split at hk
        · cases hk
          exact .raised _
        · split at hk
          · split at hk <;> cases hk
            · exact .raised _
            · exact .wrote rfl o _ ho (some _) rfl
          · cases hk
            exact .raised _
      · cases hk
        exact .held rfl (by simpa using ‹¬s.tablesReady = true›)
  | dbToLinear id db =>
    simp only [exec, execDbToLinear, raise] at h
    split at h
    · cases h
      exact .raised _
    · exact finishRead_shape (i := .dbToLinear id db) rfl rfl h
  | readRom id sel index =>
    simp only [exec, execReadRom, raise] at h
    split at h
    · cases h
      exact .raised _
    · split at h
      · cases h
        exact .raised _
      · exact finishRead_shape (i := .readRom id sel index) rfl rfl h
  | reserved id =>
    cases h
    exact .raised _

/-- No command touches the ROMs, their progress bits, the realisation or the turns. -/
theorem exec_keeps_roms {i : Instr} {s t : State} (h : exec i s = .next t) :
    t.exp = s.exp ∧ t.logSin = s.logSin ∧ t.fastExp = s.fastExp ∧ t.expDone = s.expDone ∧
    t.logSinDone = s.logSinDone ∧ t.fastExpDone = s.fastExpDone ∧ t.romMode = s.romMode ∧ t.schedule = s.schedule := by
  cases exec_shape h <;> simp

/-- No command changes what the ROMs read as. -/
theorem exec_romRead {i : Instr} {s t : State} (h : exec i s = .next t) (rom : RomName) (k : Nat) :
    t.romRead rom k = s.romRead rom k := by
  cases exec_shape h <;> rfl

theorem exec_tablesReady {i : Instr} {s t : State} (h : exec i s = .next t) : t.tablesReady = s.tablesReady := by
  cases exec_shape h <;> rfl

/-! ## A step -/

/-- A faulted core takes no step (60_exceptions.md R203). -/
theorem step_of_fault {s : State} {r : FaultRecord} (h : s.fault = some r) : step s = .fault (.coreFaulted r.kind) := by
  simp only [step, takeTurn, h]

/-- On a core with no fault the agent whose turn it is takes it. -/
theorem step_of_no_fault {s : State} (h : s.fault = none) : step s = agentTurn (nextTurn s) (dropTurn s) := by
  simp only [step, takeTurn, h]

/-- A step that answers a next state starts from no fault. -/
theorem fault_none_of_step {s t : State} (h : step s = .next t) : s.fault = none := by
  cases hf : s.fault with
  | none => rfl
  | some r =>
    rw [step_of_fault hf] at h
    cases h

/-- What a step can do, all from no fault: a generator turn; nothing, on a core with no command pending; or the head
command. -/
theorem step_cases {s t : State} (h : step s = .next t) :
    (∃ g, nextTurn s = .generator g ∧ s.fault = none ∧ t = generatorTurn g (dropTurn s)) ∨
    (nextTurn s = .commandUnit ∧ s.fault = none ∧ s.commands = [] ∧ t = dropTurn s) ∨
    (∃ c rest, nextTurn s = .commandUnit ∧ s.fault = none ∧ s.commands = c :: rest ∧
      exec (decode c) (dropTurn s) = .next t) := by
  have hf := fault_none_of_step h
  rw [step_of_no_fault hf] at h
  cases hn : nextTurn s with
  | generator g =>
    simp only [hn, agentTurn] at h
    cases h
    exact .inl ⟨g, rfl, hf, rfl⟩
  | commandUnit =>
    simp only [hn, agentTurn, commandTurn, dropTurn_commands] at h
    split at h
    · rename_i hc
      cases h
      exact .inr (.inl ⟨rfl, hf, hc, rfl⟩)
    · rename_i c rest hc
      exact .inr (.inr ⟨c, rest, rfl, hf, hc, h⟩)

/-- An enabled generator step leaves everything but its ROM and progress bit. -/
theorem genWrite_keeps (g : GenStep) (s : State) :
    (genWrite g s).ops = s.ops ∧ (genWrite g s).fault = s.fault ∧ (genWrite g s).commands = s.commands ∧
    (genWrite g s).index = s.index ∧ (genWrite g s).y = s.y ∧ (genWrite g s).observed = s.observed ∧
    (genWrite g s).romMode = s.romMode ∧ (genWrite g s).schedule = s.schedule := by
  cases g <;> exact ⟨rfl, rfl, rfl, rfl, rfl, rfl, rfl, rfl⟩

/-- A generator turn leaves everything but its ROM and progress bit. -/
theorem generatorTurn_keeps (g : GenStep) (s : State) :
    (generatorTurn g s).ops = s.ops ∧ (generatorTurn g s).fault = s.fault ∧
    (generatorTurn g s).commands = s.commands ∧ (generatorTurn g s).index = s.index ∧
    (generatorTurn g s).y = s.y ∧ (generatorTurn g s).observed = s.observed ∧
    (generatorTurn g s).romMode = s.romMode ∧ (generatorTurn g s).schedule = s.schedule := by
  unfold generatorTurn
  split
  · exact genWrite_keeps g s
  · exact ⟨rfl, rfl, rfl, rfl, rfl, rfl, rfl, rfl⟩

end Sys2Proof.Machine
end

