-- ==== Sys2Proof/Laws/Memory.lean ====
section
/-! SUPPORT. The laws of ROM cells: read after write, and the canonical form that every operation keeps. -/

namespace Sys2Proof.Machine

variable {w : Nat} {bg : Nat → Option (BitVec w)} {size low : Nat}

theorem cellsWfFrom_cons {a : Nat} {v : BitVec w} {rest : RomCells w} :
    cellsWfFrom bg size low ((a, v) :: rest) = true ↔
      low ≤ a ∧ a < size ∧ bg a ≠ some v ∧ cellsWfFrom bg size (a + 1) rest = true := by
  simp [cellsWfFrom, and_assoc]

theorem cellsWfFrom_mono {m : RomCells w} {low' : Nat} (h : cellsWfFrom bg size low' m = true) (hl : low ≤ low') :
    cellsWfFrom bg size low m = true := by
  cases m with
  | nil => rfl
  | cons c rest =>
    obtain ⟨h1, h2⟩ := cellsWfFrom_cons.mp h
    exact cellsWfFrom_cons.mpr ⟨hl.trans h1, h2⟩

/-- Below its first index a canonical list reads as the background. -/
theorem cellsRead_below {m : RomCells w} {i : Nat} (h : cellsWfFrom bg size low m = true) (hi : i < low) :
    cellsRead bg m i = bg i := by
  induction m generalizing low with
  | nil => rfl
  | cons c rest ih =>
    obtain ⟨a, v⟩ := c
    obtain ⟨h1, -, -, h4⟩ := cellsWfFrom_cons.mp h
    rw [cellsRead, if_neg (by omega)]
    exact ih h4 (by omega)

theorem cellsRead_cellsCons {rest : RomCells w} {i j : Nat} {v : BitVec w}
    (h : cellsWfFrom bg size (i + 1) rest = true) :
    cellsRead bg (cellsCons bg i v rest) j = if j = i then some v else cellsRead bg rest j := by
  unfold cellsCons
  split
  · rename_i hb
    split
    · rename_i hj
      subst hj
      rw [cellsRead_below h (by omega), hb]
    · rfl
  · simp only [cellsRead, eq_comm]

/-- A read after a write gives the value written at its index, and the read before it everywhere else. -/
theorem cellsRead_cellsWrite {m : RomCells w} {i j : Nat} {v : BitVec w} (h : cellsWfFrom bg size low m = true) :
    cellsRead bg (cellsWrite bg m i v) j = if j = i then some v else cellsRead bg m j := by
  induction m generalizing low with
  | nil => exact cellsRead_cellsCons (size := size) rfl
  | cons c rest ih =>
    obtain ⟨a, u⟩ := c
    obtain ⟨-, h2, h3, h4⟩ := cellsWfFrom_cons.mp h
    rw [cellsWrite]
    split
    · exact cellsRead_cellsCons (cellsWfFrom_cons.mpr ⟨by omega, h2, h3, h4⟩)
    · split
      · rename_i _ hia
        subst hia
        rw [cellsRead_cellsCons h4, cellsRead]
        split
        · rfl
        · rw [if_neg (by omega)]
      · rename_i _ hia
        rw [cellsRead, cellsRead, ih h4]
        split
        · rw [if_neg (by omega)]
        · rfl

theorem cellsWf_cellsCons {rest : RomCells w} {i : Nat} {v : BitVec w} (h : cellsWfFrom bg size (i + 1) rest = true)
    (hl : low ≤ i) (hi : i < size) : cellsWfFrom bg size low (cellsCons bg i v rest) = true := by
  unfold cellsCons
  split
  · exact cellsWfFrom_mono h (by omega)
  · rename_i hb
    exact cellsWfFrom_cons.mpr ⟨hl, hi, hb, h⟩

theorem cellsWf_cellsWrite {m : RomCells w} {i : Nat} {v : BitVec w} (h : cellsWfFrom bg size low m = true)
    (hl : low ≤ i) (hi : i < size) : cellsWfFrom bg size low (cellsWrite bg m i v) = true := by
  induction m generalizing low with
  | nil => exact cellsWf_cellsCons rfl hl hi
  | cons c rest ih =>
    obtain ⟨a, u⟩ := c
    obtain ⟨h1, h2, h3, h4⟩ := cellsWfFrom_cons.mp h
    rw [cellsWrite]
    split
    · exact cellsWf_cellsCons (cellsWfFrom_cons.mpr ⟨by omega, h2, h3, h4⟩) hl hi
    · split
      · rename_i _ hia
        subst hia
        exact cellsWf_cellsCons h4 hl hi
      · exact cellsWfFrom_cons.mpr ⟨h1, h2, h3, ih h4 (by omega)⟩

/-- Filling writes what `f` gives below `n` and leaves the rest. -/
theorem cellsRead_cellsFill {f : Nat → Option (BitVec w)} {n : Nat} {m : RomCells w} {j : Nat}
    (h : cellsWf bg size m = true) (hn : n ≤ size) :
    cellsRead bg (cellsFill bg f n m) j =
      if j < n then (f j).orElse (fun _ => cellsRead bg m j) else cellsRead bg m j := by
  induction n generalizing m with
  | zero => simp [cellsFill]
  | succ n ih =>
    rw [cellsFill]
    cases hf : f n with
    | none =>
      rw [ih h (by omega)]
      rcases Nat.lt_trichotomy j n with hj | rfl | hj
      · simp [hj, Nat.lt_succ_of_lt hj]
      · simp [hf]
      · simp [Nat.not_lt.mpr hj.le, Nat.not_lt.mpr hj]
    | some v =>
      simp only
      rw [ih (cellsWf_cellsWrite h (Nat.zero_le _) (by omega)) (by omega), cellsRead_cellsWrite h]
      rcases Nat.lt_trichotomy j n with hj | rfl | hj
      · simp [hj, Nat.lt_succ_of_lt hj, hj.ne]
      · simp [hf]
      · simp [Nat.not_lt.mpr hj.le, Nat.not_lt.mpr hj, hj.ne']

theorem cellsWf_cellsFill {f : Nat → Option (BitVec w)} {n : Nat} {m : RomCells w} (h : cellsWf bg size m = true)
    (hn : n ≤ size) : cellsWf bg size (cellsFill bg f n m) = true := by
  induction n generalizing m with
  | zero => simpa [cellsFill] using h
  | succ n ih =>
    rw [cellsFill]
    cases f n with
    | none => exact ih h (by omega)
    | some v => exact ih (cellsWf_cellsWrite h (Nat.zero_le _) (by omega)) (by omega)

/-! ## The ROMs of the state -/

theorem powerOn_romsWf (mode : RomMode) (n : Nat) : (State.powerOn mode n).romsWf = true := rfl

theorem reset_romsWf : State.reset.romsWf = true := rfl

theorem romsWf_iff {s : State} : s.romsWf = true ↔
    cellsWf (background 10 .exp s.romMode) (romSize .exp) s.exp = true ∧
    cellsWf (background 12 .logSin s.romMode) (romSize .logSin) s.logSin = true ∧
    cellsWf (background 20 .fastExp s.romMode) (romSize .fastExp) s.fastExp = true := by
  simp [State.romsWf, and_assoc]

theorem genExp_romsWf {s : State} (h : s.romsWf = true) : (genExp s).romsWf = true := by
  obtain ⟨h1, h2, h3⟩ := romsWf_iff.mp h
  simpa only [romsWf_iff, genExp] using ⟨cellsWf_cellsFill h1 (le_refl _), h2, h3⟩

theorem genLogSin_romsWf {s : State} (h : s.romsWf = true) : (genLogSin s).romsWf = true := by
  obtain ⟨h1, h2, h3⟩ := romsWf_iff.mp h
  simpa only [romsWf_iff, genLogSin] using ⟨h1, cellsWf_cellsFill h2 (le_refl _), h3⟩

theorem genFastExp_romsWf {s : State} (h : s.romsWf = true) : (genFastExp s).romsWf = true := by
  obtain ⟨h1, h2, h3⟩ := romsWf_iff.mp h
  simpa only [romsWf_iff, genFastExp] using ⟨h1, h2, cellsWf_cellsFill h3 (le_refl _)⟩

/-- Every generator turn keeps the canonical form. -/
theorem generatorTurn_romsWf {s : State} (g : GenStep) (h : s.romsWf = true) : (generatorTurn g s).romsWf = true := by
  unfold generatorTurn
  split
  · cases g with
    | genExp => exact genExp_romsWf h
    | genLogSin => exact genLogSin_romsWf h
    | genFastExp => exact genFastExp_romsWf h
  · exact h

end Sys2Proof.Machine
end

