-- ==== Sys2Proof/Laws/Operands.lean ====
section
/-! SUPPORT. Each operand check of 30_encoding.md R88, where it passes and where it does not. -/

namespace Sys2Proof.Machine

theorem sext32_eq (w : Word) : sext32 w = w.toInt := rfl

theorem octaveOf_pass {b : Word} (h0 : 0 ≤ b.toInt) (h1 : b.toInt ≤ 31) : octaveOf b = some b.toInt.toNat :=
  if_pos ⟨h0, h1⟩

theorem octaveOf_fail {b : Word} (h : b.toInt < 0 ∨ 31 < b.toInt) : octaveOf b = none :=
  if_neg fun hb => by have e := sext32_eq b; omega

theorem multOf_pass {a : Word} (h : 1 ≤ a.toInt) : multOf a = some a := if_pos h

theorem multOf_fail {a : Word} (h : a.toInt < 1) : multOf a = none := if_neg (Int.not_le.mpr h)

theorem dbOf_pass {a : Word} (h0 : 0 ≤ a.toInt) (h1 : a.toInt ≤ 8191) : dbOf a = some a.toInt.toNat :=
  if_pos ⟨h0, h1⟩

theorem dbOf_fail {a : Word} (h : a.toInt < 0 ∨ 8191 < a.toInt) : dbOf a = none :=
  if_neg fun hb => by have e := sext32_eq a; simp only [dbMax] at hb; omega

theorem selOf_exp {a : Word} (h : a.toInt = 0) : selOf a = some .exp := by simp [selOf, sext32, h]

theorem selOf_logSin {a : Word} (h : a.toInt = 1) : selOf a = some .logSin := by simp [selOf, sext32, h]

theorem selOf_fastExp {a : Word} (h : a.toInt = 2) : selOf a = some .fastExp := by simp [selOf, sext32, h]

theorem selOf_fail {a : Word} (h : a.toInt < 0 ∨ 2 < a.toInt) : selOf a = none := by
  have e := sext32_eq a
  rw [selOf, if_neg (by omega), if_neg (by omega), if_neg (by omega)]

theorem indexOf_pass {rom : RomName} {b : Word} (h0 : 0 ≤ b.toInt) (h1 : b.toInt < romSize rom) :
    indexOf rom b = some b.toInt.toNat := if_pos ⟨h0, h1⟩

theorem indexOf_fail {rom : RomName} {b : Word} (h : b.toInt < 0 ∨ (romSize rom : Int) ≤ b.toInt) :
    indexOf rom b = none := if_neg fun hb => by have e := sext32_eq b; omega

/-- All five registers are written exactly where `sampleRegs` gives them. -/
theorem sampleRegs_ok_iff {o : Operator} {r : SampleRegs} : sampleRegs o = .ok r ↔
    o.phase = some r.phase ∧ o.previousOutput = some r.previousOutput ∧ o.phaseIncrement = some r.phaseIncrement ∧
    o.multiplier = some r.multiplier ∧ o.rectifyEnabled = some r.rectifyEnabled := by
  obtain ⟨rp, rpo, rpi, rm, rr⟩ := r
  obtain ⟨m, pi, f, re, p, po⟩ := o
  cases p <;> cases po <;> cases pi <;> cases m <;> cases re <;> simp [sampleRegs]

end Sys2Proof.Machine
end

