-- ==== Sys2Proof/Laws/PerInstr.lean ====
section
/-! SUPPORT. Statements about each constructor of Instr as syntax. -/

/-- The tuple of a command decodes to the command (30_encoding.md R85, R92). -/
def Sys2Proof.Laws.TupleRoundTrip.Statement (i : Sys2Proof.Instr) : Prop := Sys2Proof.decode (Sys2Proof.encode i) = i

theorem Sys2Proof.Laws.TupleRoundTrip.setFrequency (id : Nat) (fNumber octave : Sys2Proof.Word) :
    Sys2Proof.Laws.TupleRoundTrip.Statement (.setFrequency id fNumber octave) := rfl

theorem Sys2Proof.Laws.TupleRoundTrip.setMultiplier (id : Nat) (mult : Sys2Proof.Word) :
    Sys2Proof.Laws.TupleRoundTrip.Statement (.setMultiplier id mult) := rfl

theorem Sys2Proof.Laws.TupleRoundTrip.setRectify (id : Nat) (enabled : Bool) :
    Sys2Proof.Laws.TupleRoundTrip.Statement (.setRectify id enabled) := by
  unfold Sys2Proof.Laws.TupleRoundTrip.Statement
  cases enabled <;> simp [Sys2Proof.encode, Sys2Proof.decode, Sys2Proof.opSetRectify, Sys2Proof.opSetFrequency,
    Sys2Proof.opSetMultiplier]

theorem Sys2Proof.Laws.TupleRoundTrip.start (id : Nat) :
    Sys2Proof.Laws.TupleRoundTrip.Statement (.start id) := rfl

theorem Sys2Proof.Laws.TupleRoundTrip.fetchSample (id : Nat) (freqDiff vib ampDiff : Sys2Proof.Word) :
    Sys2Proof.Laws.TupleRoundTrip.Statement (.fetchSample id freqDiff vib ampDiff) := rfl

theorem Sys2Proof.Laws.TupleRoundTrip.dbToLinear (id : Nat) (db : Sys2Proof.Word) :
    Sys2Proof.Laws.TupleRoundTrip.Statement (.dbToLinear id db) := rfl

theorem Sys2Proof.Laws.TupleRoundTrip.readRom (id : Nat) (sel index : Sys2Proof.Word) :
    Sys2Proof.Laws.TupleRoundTrip.Statement (.readRom id sel index) := rfl

theorem Sys2Proof.Laws.TupleRoundTrip.reserved (id : Nat) :
    Sys2Proof.Laws.TupleRoundTrip.Statement (.reserved id) := rfl
end

