-- ==== Sys2Proof/Laws/Tables.lean ====
section
/-! SUPPORT. The contents of the ROMs fit their words (20_memory.md R51 to R53), and the index and shift of `dbToLinear` as
arithmetic (40_table_generator.md R103). -/

namespace Sys2Proof.Machine

theorem getD_le_of_forall {l : List Nat} {b : Nat} (h : ∀ x, x ∈ l → x ≤ b) (i : Nat) : l.getD i 0 ≤ b := by
  rw [List.getD_eq_getElem?_getD]
  cases hx : l[i]? with
  | none => exact Nat.zero_le _
  | some x => exact h x (List.mem_of_getElem? hx)

/-- The words of EXP lie in 0..1018 (R51). -/
theorem expContents_le (i : Nat) : expContents i ≤ 1018 := getD_le_of_forall (by decide +kernel) i

/-- The words of LOGSIN lie in 0..2137 (R52). -/
theorem logSinContents_le (i : Nat) : logSinContents i ≤ 2137 := getD_le_of_forall (by decide +kernel) i

theorem fastExpContents_lt (db : Nat) : fastExpContents db < 2 ^ 20 :=
  Nat.lt_of_le_of_lt Nat.and_le_right (by decide)

/-- The EXP index is the complement of the low byte (R103). -/
theorem dbToLinearIndex_eq (db : Nat) : dbToLinearIndex db = 255 - db % 256 := by
  have h1 : db &&& 0xFF = db % 256 := Nat.and_two_pow_sub_one_eq_mod db 8
  have h2 : ∀ n < 256, n ^^^ 0xFF = 255 - n := by decide +kernel
  rw [dbToLinearIndex, h1, h2 _ (Nat.mod_lt _ (by decide))]

theorem dbToLinearIndex_lt (db : Nat) : dbToLinearIndex db < 256 := by
  rw [dbToLinearIndex_eq]; omega

/-- The shift falls from 9 to 2 with the clamped exponent field (R103). -/
theorem dbToLinearShift_eq (db : Nat) : dbToLinearShift db = 7 - min (db / 256) 7 + 2 := by
  have h : ∀ n ≤ 7, 7 ^^^ n = 7 - n := by decide
  rw [dbToLinearShift, Nat.shiftRight_eq_div_pow, h _ (Nat.min_le_right _ _)]

/-- `dbToLinear` as arithmetic (R103, R56). -/
theorem dbToLinear_eq (db : Nat) :
    dbToLinear db = (1024 + expContents (255 - db % 256)) * 2 ^ (7 - min (db / 256) 7 + 2) := by
  rw [dbToLinear, dbToLinearOf, Nat.shiftLeft_eq, dbToLinearShift_eq, dbToLinearIndex_eq, Nat.add_comm 1024]

/-- Every value of `dbToLinear` lies in [4096, 1045504] (R103). -/
theorem dbToLinear_bounds (db : Nat) : 4096 ≤ dbToLinear db ∧ dbToLinear db ≤ 1045504 := by
  rw [dbToLinear_eq]
  have he := expContents_le (255 - db % 256)
  generalize expContents (255 - db % 256) = e at he
  have hs : min (db / 256) 7 ≤ 7 := Nat.min_le_right _ _
  generalize min (db / 256) 7 = k at hs
  interval_cases k <;> omega

/-- OUT_MASK changes no value (R53). -/
theorem fastExpContents_eq (db : Nat) : fastExpContents db = dbToLinear db := by
  rw [fastExpContents, outMask, Nat.and_two_pow_sub_one_eq_mod _ 20, Nat.mod_eq_of_lt]
  exact Nat.lt_of_le_of_lt (dbToLinear_bounds db).2 (by decide)

/-- What a ROM holds fits its word width (R50 to R53). -/
theorem romContents_lt (rom : RomName) (i : Nat) :
    romContents rom i < 2 ^ (match rom with | .exp => 10 | .logSin => 12 | .fastExp => 20) := by
  cases rom with
  | exp => exact Nat.lt_of_le_of_lt (expContents_le i) (by decide)
  | logSin => exact Nat.lt_of_le_of_lt (logSinContents_le i) (by decide)
  | fastExp => exact fastExpContents_lt i

end Sys2Proof.Machine
end

