-- ==== Sys2Proof/Laws/Roms.lean ====
section
/-! SUPPORT. What the ROMs read as: at power-on, after each generator step, and after a change elsewhere in the state
(20_memory.md R51 to R53, 40_table_generator.md R101 to R104). -/

namespace Sys2Proof.Machine

theorem background_precomputed_toNat {w : Nat} {rom : RomName} {i : Nat} (hi : i < romSize rom)
    (hw : romContents rom i < 2 ^ w) :
    (background w rom .precomputed i).map BitVec.toNat = some (romContents rom i) := by
  simp [background, hi, Nat.mod_eq_of_lt hw]

/-- A PRECOMPUTED core whose cells list nothing holds the contents of every ROM. -/
theorem holds_of_precomputed {s : State} (hm : s.romMode = .precomputed) (he : s.exp = []) (hl : s.logSin = [])
    (hf : s.fastExp = []) (rom : RomName) : s.holds rom := by
  intro i hi
  have hw := romContents_lt rom i
  cases rom <;> simp only [State.romRead, hi, if_true, hm, he, hl, hf, cellsRead] <;>
    exact background_precomputed_toNat hi hw

/-- What a ROM reads as depends on the realisation and the cells alone. -/
theorem holds_of_same_roms {s t : State} {rom : RomName} (hm : t.romMode = s.romMode) (he : t.exp = s.exp)
    (hl : t.logSin = s.logSin) (hf : t.fastExp = s.fastExp) (h : s.holds rom) : t.holds rom := by
  intro i hi
  have := h i hi
  simpa only [State.romRead, hm, he, hl, hf] using this

/-- GEN_EXP fills EXP. -/
theorem genExp_holds {s : State} (h : s.romsWf = true) : (genExp s).holds .exp := by
  intro i hi
  simp only [State.romRead, hi, if_true, genExp]
  rw [cellsRead_cellsFill (romsWf_iff.mp h).1 (le_refl _), if_pos hi]
  simp only [Option.orElse_some, Option.map_some, BitVec.toNat_ofNat]
  exact congrArg some (Nat.mod_eq_of_lt (romContents_lt .exp i))

/-- GEN_LOGSIN fills LOGSIN. -/
theorem genLogSin_holds {s : State} (h : s.romsWf = true) : (genLogSin s).holds .logSin := by
  intro i hi
  simp only [State.romRead, hi, if_true, genLogSin]
  rw [cellsRead_cellsFill (romsWf_iff.mp h).2.1 (le_refl _), if_pos hi]
  simp only [Option.orElse_some, Option.map_some, BitVec.toNat_ofNat]
  exact congrArg some (Nat.mod_eq_of_lt (romContents_lt .logSin i))

/-- GEN_FASTEXP fills FASTEXP from a filled EXP. -/
theorem genFastExp_holds {s : State} (h : s.romsWf = true) (he : s.holds .exp) : (genFastExp s).holds .fastExp := by
  intro i hi
  simp only [State.romRead, hi, if_true, genFastExp]
  rw [cellsRead_cellsFill (romsWf_iff.mp h).2.2 (le_refl _), if_pos hi, fastExpFromExp, he _ (dbToLinearIndex_lt i)]
  simp only [Option.orElse_some, Option.map_some, BitVec.toNat_ofNat]
  exact congrArg some (Nat.mod_eq_of_lt (romContents_lt .fastExp i))

/-- The invariant gives filled ROMs once the tables are ready. -/
theorem State.Inv.romsFilled {s : State} (h : s.Inv) : s.romsFilled := by
  intro hr rom
  simp only [State.tablesReady, Bool.and_eq_true] at hr
  cases rom
  · exact h.expFilled hr.1.1
  · exact h.logSinFilled hr.1.2
  · exact h.fastExpFilled hr.2

end Sys2Proof.Machine
end

