-- ==== Sys2Proof/Laws/Sample.lean ====
section
/-! SUPPORT. The datapath of FETCH_SAMPLE as arithmetic (42_operator_sample.md R150, R153), and the command over filled
ROMs. -/

namespace Sys2Proof.Machine

theorem getLsbD_eq_div_mod (p : BitVec 20) (k : Nat) : p.getLsbD k = decide (p.toNat / 2 ^ k % 2 = 1) := by
  simp [BitVec.getLsbD, Nat.testBit_eq_decide_div_mod_eq]

/-- Folding by IN_MASK complements the phase. -/
theorem xor_inMask_toNat (p : BitVec 20) : (p ^^^ inMask).toNat = 2 ^ 20 - 1 - p.toNat := by
  have h : p ^^^ inMask = ~~~p := by
    apply BitVec.eq_of_getLsbD_eq
    intro i hi
    have hm : ∀ i < 20, inMask.getLsbD i = true := by decide
    rw [BitVec.getLsbD_xor, hm i hi]
    simp [hi]
  rw [h, BitVec.toNat_not]

/-- The second form of R150: bits [15:8] of the phase, complemented where bit 16 is set. -/
theorem logSinIndex_eq (p : BitVec 20) : logSinIndex p =
    if p.toNat / 2 ^ 16 % 2 = 0 then p.toNat / 2 ^ 8 % 256 else 255 - p.toNat / 2 ^ 8 % 256 := by
  have fold (q : BitVec 20) : ((q >>> 8) &&& 0xFF#20).toNat = q.toNat / 2 ^ 8 % 256 := by
    rw [BitVec.toNat_and, BitVec.toNat_ushiftRight, Nat.shiftRight_eq_div_pow]
    exact Nat.and_two_pow_sub_one_eq_mod _ 8
  have hp := p.isLt
  rw [logSinIndex, fold, getLsbD_eq_div_mod]
  by_cases h : p.toNat / 2 ^ 16 % 2 = 1
  · rw [decide_eq_true h, if_pos rfl, xor_inMask_toNat, if_neg (by omega)]
    omega
  · rw [decide_eq_false h, if_neg (by decide), if_pos (by omega)]

theorem logSinIndex_lt (p : BitVec 20) : logSinIndex p < 256 := by
  rw [logSinIndex_eq]
  split <;> omega

/-- `logSin` lies in [0, 2137] (R150). -/
theorem logSin_le (p : BitVec 20) : logSin p ≤ 2137 := logSinContents_le _

/-- `negate` is the second half of the cycle (R153). -/
theorem negateOf_eq (p : BitVec 20) : negateOf p = decide (p.toNat / 2 ^ 17 % 2 = 1) := getLsbD_eq_div_mod p 17

/-- FETCH_SAMPLE on a written operator, with the ROMs filled: one domain check, then the sample (R158). -/
theorem execFetchSample_filled {id : Nat} {freqDiff vib ampDiff : Word} {s : State} {o : Operator} {r : SampleRegs}
    (ho : s.ops[id]? = some o) (hr : sampleRegs o = .ok r) (ht : s.tablesReady = true) (hf : s.romsFilled) :
    execFetchSample id freqDiff vib ampDiff s =
      if 0 ≤ (logSin (realPhaseOf r.phase freqDiff) : Int) + ampDiff.toInt ∧
          (logSin (realPhaseOf r.phase freqDiff) : Int) + ampDiff.toInt ≤ 8191 then
        finishSample s id o r (realPhaseOf r.phase freqDiff) vib
          (fastExpContents ((logSin (realPhaseOf r.phase freqDiff) : Int) + ampDiff.toInt).toNat)
      else raise s id opFetchSample (.domain ((logSin (realPhaseOf r.phase freqDiff) : Int) + ampDiff.toInt)
        (realPhaseOf r.phase freqDiff) ampDiff.toInt) := by
  have hw : romContents .logSin (logSinIndex (realPhaseOf r.phase freqDiff)) = logSin (realPhaseOf r.phase freqDiff) := rfl
  simp only [execFetchSample, withOperator_some _ _ ho, hr, ht, if_true, sampleLookup,
    hf ht .logSin _ (logSinIndex_lt _), hw, dbMax]
  split
  · rename_i h
    rw [hf ht .fastExp _ (by simp only [romSize]; omega)]
    rfl
  · rfl

end Sys2Proof.Machine
end

