-- ==== Sys2Proof/Tests/Slice0.lean ====
section
/-! SUPPORT. Tests with expected results from spec/95_test_vectors.md and the encoding rules, and a witness for the
hypotheses of each obligation. -/

namespace Sys2Proof.Tests

open Sys2Proof Sys2Proof.Machine

/-! ## Small states -/

/-- A written operator: raw F-number 1, and the rest as given. -/
def operator (phase : BitVec 20) (previousOutput : Int) (phaseIncrement : BitVec 20) (multiplier : BitVec 32)
    (rectifyEnabled : Bool) : Operator :=
  { multiplier := some multiplier, phaseIncrement := some phaseIncrement, fNumber := some 1#32,
    rectifyEnabled := some rectifyEnabled, phase := some phase, previousOutput := some (BitVec.ofInt 21 previousOutput) }

/-- Operator 0 configured and started, operator 1 at power-on. -/
def ops0 : List Operator := [operator 0#20 0 0x10000#20 1#32 false, Operator.powerOn]

/-- The start state of section 2.7: PRECOMPUTED. -/
def ready : State := { State.powerOn .precomputed 2 with ops := ops0 }

/-- The same in GENERATED mode, its tables not ready. -/
def waiting : State := { State.powerOn .generated 2 with ops := ops0 }

/-- PRECOMPUTED, one operator. -/
def readyWith (o : Operator) : State := { State.powerOn .precomputed 1 with ops := [o] }

/-- A core whose record holds a fault. -/
def faulted : State := ready.takeFault 0 0b111#3 (.op 0b111#3)

def nextOf : Result → Option State
  | .next t => some t
  | .fault _ => none
  | .refused _ => none

/-- The fault that a step stops with. -/
def stopOf : Result → Option Fault
  | .next _ => none
  | .fault r => some r
  | .refused _ => none

theorem exists_of_nextOf {r : Result} (h : (nextOf r).isSome = true) : ∃ t, r = .next t := by
  cases r with
  | next t => exact ⟨t, rfl⟩
  | fault => cases h
  | refused => cases h

/-- Y after a command. -/
def yOf (r : Result) : Option Int := (nextOf r).bind fun t => t.y.map BitVec.toInt

/-- The fault record's info after a command. -/
def infoOf (r : Result) : Option FaultInfo := (nextOf r).bind fun t => t.fault.map FaultRecord.info

/-- The fault code after a command. -/
def codeOf (r : Result) : Option Nat := (nextOf r).bind fun t => t.fault.map FaultRecord.code

/-- Operator 0 after a command. -/
def op0Of (r : Result) : Option Operator := (nextOf r).bind fun t => t.ops[0]?

/-- Y, the phase and the previous output of operator 0 after a FETCH_SAMPLE. -/
def sampleOf (r : Result) : Option Int × Option (BitVec 20) × Option Int :=
  (yOf r, (op0Of r).bind Operator.phase, ((op0Of r).bind Operator.previousOutput).map BitVec.toInt)

theorem ready_inv : ready.Inv where
  operators o ho := by
    rcases List.mem_cons.mp ho with rfl | ho
    · constructor <;> intro x hx <;> cases hx <;> decide
    · rw [List.mem_singleton.mp ho]
      constructor <;> intro x hx <;> cases hx
  someOperator := by decide
  canonical := rfl
  expFilled _ := holds_of_precomputed rfl rfl rfl rfl .exp
  logSinFilled _ := holds_of_precomputed rfl rfl rfl rfl .logSin
  fastExpFilled _ := holds_of_precomputed rfl rfl rfl rfl .fastExp
  slowFirst _ := ⟨rfl, rfl⟩
  precomputedReady _ := rfl
  faultRecord r h := by cases h

theorem waiting_inv : waiting.Inv where
  operators := ready_inv.operators
  someOperator := by decide
  canonical := rfl
  expFilled h := by cases h
  logSinFilled h := by cases h
  fastExpFilled h := by cases h
  slowFirst h := by cases h
  precomputedReady h := by cases h
  faultRecord r h := by cases h

theorem ready_romsFilled : ready.romsFilled := ready_inv.romsFilled

theorem waiting_romsFilled : waiting.romsFilled := waiting_inv.romsFilled

/-! ## Well-formedness: the terms the checks refuse -/

theorem test_wf_refuses_wide_id : (Instr.start (2 ^ 29)).wf = false := by decide
theorem test_wf_accepts_widest_id : (Instr.start (2 ^ 29 - 1)).wf = true := by decide
theorem test_command_wf_refuses_wide_id : (Command.mk (2 ^ 29) 0b011#3 0#32 0#32 0#32).wf = false := by decide
theorem test_drivable_refuses_wide_id : (Command.mk 4 0b011#3 0#32 0#32 0#32).drivable 3 = false := by decide
theorem test_drivable_accepts_missing_operator : (Command.mk 3 0b011#3 0#32 0#32 0#32).drivable 3 = true := by decide
theorem test_admitted_refuses_id : (Instr.setRectify 2 true).admitted 2 = false := by decide
theorem test_admitted_refuses_octave : (Instr.setFrequency 0 1#32 32#32).admitted 2 = false := by decide
theorem test_admitted_refuses_negative_octave : (Instr.setFrequency 0 1#32 0xFFFFFFFF#32).admitted 2 = false := by decide
theorem test_admitted_refuses_mult : (Instr.setMultiplier 0 0#32).admitted 2 = false := by decide
theorem test_admitted_refuses_start_id : (Instr.start 2).admitted 2 = false := by decide
theorem test_admitted_refuses_fetch_id : (Instr.fetchSample 2 0#32 0#32 0#32).admitted 2 = false := by decide
theorem test_admitted_refuses_db : (Instr.dbToLinear 0 8192#32).admitted 2 = false := by decide
theorem test_admitted_refuses_sel : (Instr.readRom 0 3#32 0#32).admitted 2 = false := by decide
theorem test_admitted_refuses_index : (Instr.readRom 0 0#32 256#32).admitted 2 = false := by decide
theorem test_admitted_refuses_negative_index : (Instr.readRom 0 2#32 0xFFFFFFFF#32).admitted 2 = false := by decide
theorem test_admitted_refuses_reserved : (Instr.reserved 0).admitted 2 = false := by decide

/-! ## Decoding, from words written out

The head word has OP in bits [2:0] (R85, spec/opcode_table.json) and ID above; A starts at bit 32, B at 64, C at 96. -/

/-- OP = 000, ID = 0, A = 0x00000123, B = 3 (section 2.4). -/
theorem test_decode_setFrequency :
    decodeTableWord 96 0x000000030000012300000000 = some (.setFrequency 0 0x123#32 3#32) := by decide
/-- OP = 001, ID = 1, A = 15. -/
theorem test_decode_setMultiplier : decodeTableWord 64 0x0000000F00000009 = some (.setMultiplier 1 15#32) := by decide
/-- OP = 010, A = 0xFFFFFFFE: A[0] is 0. -/
theorem test_decode_setRectify : decodeTableWord 64 0xFFFFFFFE00000002 = some (.setRectify 0 false) := by decide
/-- OP = 011, ID = 5; the operands are not read. -/
theorem test_decode_start : decodeTableWord 64 0x123456780000002B = some (.start 5) := by decide
/-- OP = 100, A = 1, B = 2, C = 3. -/
theorem test_decode_fetchSample :
    decodeTableWord 128 0x00000003000000020000000100000004 = some (.fetchSample 0 1#32 2#32 3#32) := by decide
/-- OP = 101, A = 2137. -/
theorem test_decode_dbToLinear : decodeTableWord 64 0x0000085900000005 = some (.dbToLinear 0 2137#32) := by decide
/-- OP = 110, A = 1 (LOGSIN), B = 255. -/
theorem test_decode_readRom : decodeTableWord 96 0x000000FF0000000100000006 = some (.readRom 0 1#32 255#32) := by decide
/-- OP = 111. -/
theorem test_decode_reserved : decodeTableWord 8 0x07 = some (.reserved 0) := by decide

theorem test_decode_refuses_short_image : decodeBytes (List.replicate 15 0#8) = .error .truncated := by decide

theorem test_image_bytes : encodeBytes (.setFrequency 1 0x04030201#32 7#32) =
    [0x08#8, 0#8, 0#8, 0#8, 1#8, 2#8, 3#8, 4#8, 7#8, 0#8, 0#8, 0#8, 0#8, 0#8, 0#8, 0#8] := by decide

/-! ## Text (R92) -/

theorem test_assemble_fetch : assembleText "FETCH op1, -68554, 3, 0x300" =
    some ⟨1, 0b100#3, 0xFFFEF436#32, 3#32, 0x300#32⟩ := by decide
theorem test_assemble_readrom : assembleText "READROM LOGSIN, 0" = some ⟨0, 0b110#3, 1#32, 0#32, 0#32⟩ := by decide
theorem test_encoded_text : encodedText ⟨1, 0b100#3, 0xFFFEF436#32, 3#32, 0x300#32⟩ =
    "ID=1 OP=100 A=0xFFFEF436 B=0x00000003 C=0x00000300" := by decide

/-! ## The ROM listings (R54, R55) -/

theorem test_exp_listing : expListing.length = 256 ∧ expListing.sum = 115543 := by decide +kernel
theorem test_logSin_listing : logSinListing.length = 256 ∧ logSinListing.sum = 65406 := by decide +kernel

/-! ## One command each (sections 2.1 to 2.7) -/

theorem test_setFrequency_writes : op0Of (exec (.setFrequency 0 0xABCDE#32 4#32) ready) =
    some { ops0.headD Operator.powerOn with fNumber := some 0xABCDE#32, phaseIncrement := some 0xBCDE0#20 } := by
  decide +kernel
theorem test_setFrequency_octave : infoOf (exec (.setFrequency 0 1#32 0xFFFFFFFF#32) ready) =
    some (.operand .octave (-1)) := by decide +kernel
theorem test_setMultiplier_writes : (op0Of (exec (.setMultiplier 0 0x7FFFFFFF#32) ready)).bind Operator.multiplier =
    some 2147483647#32 := by decide +kernel
theorem test_setMultiplier_negative : infoOf (exec (.setMultiplier 0 0x80000000#32) ready) =
    some (.operand .mult (-2147483648)) := by decide +kernel
theorem test_setRectify_writes : (op0Of (exec (decode ⟨0, 0b010#3, 3#32, 0#32, 0#32⟩) ready)).bind
    Operator.rectifyEnabled = some true := by decide +kernel
theorem test_start_keeps_unwritten : ((nextOf (exec (.start 1) ready)).bind fun t => t.ops[1]?) =
    some { Operator.powerOn with phase := some 0#20, previousOutput := some 0#21 } := by decide +kernel
theorem test_start_missing_operator : infoOf (exec (.start 2) ready) = some (.operand .id 2) := by decide +kernel

/-- Row "extreme operands". -/
theorem test_fetchSample_extreme :
    sampleOf (exec (.fetchSample 0 0x7FFFFFFF#32 0x80000000#32 5#32)
      (readyWith (operator 0x12345#20 7 0x7FFFF#20 2147483647#32 false))) =
    (some 222211, some 0x92346#20, some 444416) := by decide +kernel
/-- Row "negative odd sum, arithmetic shift". -/
theorem test_fetchSample_negative :
    sampleOf (exec (.fetchSample 0 0#32 0#32 0#32) (readyWith (operator 0x80000#20 (-3) 0#20 1#32 false))) =
    (some (-3212), some 0x80000#20, some (-6420)) := by decide +kernel
theorem test_dbToLinear_repeats : yOf (exec (.dbToLinear 0 2048#32) ready) = some 8168 := by decide +kernel
theorem test_dbToLinear_outside : infoOf (exec (.dbToLinear 0 8192#32) waiting) = some (.operand .db 8192) := by
  decide +kernel
theorem test_readRom_exp : yOf (exec (.readRom 0 0#32 255#32) ready) = some 1018 := by decide +kernel
theorem test_readRom_negative_index : infoOf (exec (.readRom 0 1#32 0xFFFFFFFF#32) ready) =
    some (.operand .index (-1)) := by decide +kernel
theorem test_reserved_code : codeOf (exec (.reserved 5) ready) = some 1 := by decide +kernel
/-- Section 2.7, last row; and in GENERATED mode no generator step either (R203). -/
theorem test_faulted_core_halts : stopOf (step faulted) = some (.coreFaulted .illegalOperation) ∧
    stopOf (step (waiting.takeFault 2 0b011#3 (.operand .id 2))) = some (.coreFaulted .operand) := by decide +kernel

/-- Section 2.8: with the tables not ready the READROM takes no step. -/
theorem test_generated_mode_holds :
    (nextOf (exec (.readRom 0 1#32 0#32) waiting)).map (fun t => decide (t = waiting)) = some true := by decide +kernel

theorem test_genExp_last_word : (generatorTurn .genExp waiting).romRead .exp 255 = some 1018 := by decide +kernel
theorem test_genFastExp_waits : generatorTurn .genFastExp waiting = waiting := by decide +kernel

/-! ## Witnesses: states and operands that meet the hypotheses of each obligation -/

theorem witness_DecodeBytesOfEncodeBytes : (Instr.fetchSample (2 ^ 29 - 1) 0#32 0#32 0#32).wf = true := by decide

theorem witness_ImageOfDecodedBytes :
    Command.ofBytes (List.replicate 17 0xFF#8) =
      .ok (⟨2 ^ 29 - 1, 0b111#3, 0xFFFFFFFF#32, 0xFFFFFFFF#32, 0xFFFFFFFF#32⟩, [0xFF#8]) := rfl

/-- One tuple per clause: a reserved OP, a failing octave at its bound, a passing octave at its bound. -/
theorem witness_TupleIsFaultOrCommand :
    (Command.mk 9 0b111#3 0#32 0#32 0#32).op = 0b111#3 ∧
    ((Command.mk 0 0b000#3 1#32 32#32 0#32).op ≠ 0b111#3 ∧
      (decode ⟨0, 0b000#3, 1#32, 32#32, 0#32⟩).admitted ready.nOperators = false) ∧
    ((Command.mk 0 0b000#3 1#32 31#32 0#32).op ≠ 0b111#3 ∧
      (decode ⟨0, 0b000#3, 1#32, 31#32, 0#32⟩).admitted ready.nOperators = true ∧
      ∃ t, exec (decode ⟨0, 0b000#3, 1#32, 31#32, 0#32⟩) ready = .next t) :=
  ⟨rfl, by decide, by decide, by decide, exists_of_nextOf (by decide +kernel)⟩

/-- The bit A[0] shared by two patterns, and both table commands with no fault recorded. -/
theorem witness_UnusedInputsIgnored :
    (0xFFFFFFFE#32).getLsbD 0 = (0#32).getLsbD 0 ∧
    (∃ t, ready.fault = none ∧ t.fault = none ∧ exec (decode ⟨0, 0b101#3, 8191#32, 1#32, 2#32⟩) ready = .next t) ∧
    (∃ t, ready.fault = none ∧ t.fault = none ∧ exec (decode ⟨0, 0b110#3, 2#32, 8191#32, 2#32⟩) ready = .next t) := by
  have h {r : Result} (hr : ((nextOf r).bind State.fault).isNone = true) (hn : (nextOf r).isSome = true) :
      ∃ t, ready.fault = none ∧ t.fault = none ∧ r = .next t := by
    obtain ⟨t, rfl⟩ := exists_of_nextOf hn
    exact ⟨t, rfl, by simpa [nextOf] using hr, rfl⟩
  exact ⟨by decide, h (by decide +kernel) (by decide +kernel), h (by decide +kernel) (by decide +kernel)⟩

theorem witness_IdWidthIsCeilLog : (1 : Nat) ≤ 5 ∧ 2 ≤ idWidth 5 := by decide

theorem witness_PowerOnState : 8191 < romSize .fastExp ∧ Operator.powerOn ∈ (State.powerOn .generated 1).ops := by decide

theorem witness_InvariantAtPowerOn : (1 : Nat) ≤ 1 := by decide

/-- A step that takes a command, and one that fills a ROM. -/
theorem witness_StepKeepsInvariant :
    ((ready.withFetchWord 8 0x03).Inv ∧ ∃ t, step (ready.withFetchWord 8 0x03) = .next t) ∧
    (waiting.Inv ∧ ∃ t, step waiting = .next t) :=
  ⟨⟨⟨ready_inv.operators, ready_inv.someOperator, rfl, ready_inv.expFilled, ready_inv.logSinFilled,
    ready_inv.fastExpFilled, ready_inv.slowFirst, ready_inv.precomputedReady, ready_inv.faultRecord⟩, _, rfl⟩,
    waiting_inv, _, rfl⟩

/-- A reachable state with a written operator and ready tables. -/
theorem witness_ReachableStatesMeetRanges : ∃ s, Reachable s ∧ s.tablesReady = true ∧
    ∃ o, o ∈ s.ops ∧ o.phase = some 0#20 ∧ o.previousOutput = some 0#21 :=
  ⟨_, .step (.issue (.powerOn .precomputed 1 (le_refl 1)) ⟨0, 0b011#3, 0#32, 0#32, 0#32⟩) rfl, rfl, _,
    List.mem_singleton_self _, rfl, rfl⟩

theorem witness_EqualRomsAreEqualData :
    cellsWf (background 10 .exp .generated) 256 (cellsWrite (background 10 .exp .generated) [(7, 1#10)] 3 2#10) = true ∧
    cellsWf (background 10 .exp .generated) 256 [(3, 2#10), (7, 1#10)] = true ∧
    ∀ i, cellsRead (background 10 .exp .generated) (cellsWrite (background 10 .exp .generated) [(7, 1#10)] 3 2#10) i =
      cellsRead (background 10 .exp .generated) [(3, 2#10), (7, 1#10)] i :=
  ⟨rfl, rfl, fun _ => rfl⟩

/-- The octave at both bounds, the first missing ID, and both octaves just outside. -/
theorem witness_SetFrequencyResult :
    ready.ops[0]? = some (operator 0#20 0 0x10000#20 1#32 false) ∧ 0 ≤ (0#32).toInt ∧ (0#32).toInt ≤ 31 ∧
    0 ≤ (31#32).toInt ∧ (31#32).toInt ≤ 31 ∧ ready.nOperators ≤ 2 ∧ 1 < ready.nOperators ∧
    (0xFFFFFFFF#32).toInt < 0 ∧ 31 < (32#32).toInt := by decide

theorem witness_SetMultiplierResult :
    ready.ops[1]? = some Operator.powerOn ∧ 1 ≤ (1#32).toInt ∧ 1 ≤ (0x7FFFFFFF#32).toInt ∧ ready.nOperators ≤ 2 ∧
    0 < ready.nOperators ∧ (0#32).toInt < 1 := by decide

theorem witness_SetRectifyResult : ready.ops[1]? = some Operator.powerOn ∧ ready.nOperators ≤ 2 := by decide

theorem witness_StartResult :
    ready.ops[1]? = some Operator.powerOn ∧ ready.nOperators ≤ 2 ∧
    ∃ t u, exec (.start 1) ready = .next t ∧ exec (.start 1) t = .next u := ⟨rfl, by decide, _, _, rfl, rfl⟩

/-- The four commands, each with a next state, and an operator before and after. -/
theorem witness_ConfigurationFrame :
    (∀ i, i ∈ [Instr.setFrequency 0 1#32 31#32, .setMultiplier 0 1#32, .setRectify 0 true, .start 0] →
      selectsOperator i = true ∧ returnsResult i = false ∧ (op0Of (exec i ready)).isSome = true ∧
        (ready.ops[i.id]?).isSome = true) := by decide +kernel

/-- A sum at each end of [0, 8191]: logSin is 2137 at phase 0 and 0 at realPhase 0x0FF00. -/
theorem witness_FetchSampleResult :
    (∃ o, ready.ops[0]? = some o ∧ o.phase = some 0#20 ∧ o.previousOutput = some 0#21 ∧
      o.phaseIncrement = some 0x10000#20 ∧ o.multiplier = some 1#32 ∧ o.rectifyEnabled = some false) ∧
    ready.tablesReady = true ∧ ready.romsFilled ∧
    (logSinContents (0 : Int).toNat + (6054#32).toInt = 8191) ∧
    (((0#20).toNat : Int) / 4 + (0xFF00#32).toInt) % 2 ^ 20 = 0xFF00 ∧
    (logSinContents (255 : Int).toNat + (0#32).toInt = 0) :=
  ⟨⟨_, rfl, rfl, rfl, rfl, rfl, rfl⟩, rfl, ready_romsFilled, by decide +kernel, by decide, by decide +kernel⟩

/-- The first ⊥ register in each place of the order, and a configuration command with a next state. -/
theorem witness_UnwrittenRegisterFaults :
    (readyWith Operator.powerOn).ops[0]? = some Operator.powerOn ∧ Operator.powerOn.phase = none ∧
    (∃ o : Operator, (readyWith o).ops[0]? = some o ∧ o.phase ≠ none ∧ o.previousOutput = none) ∧
    (∃ o : Operator, (readyWith o).ops[0]? = some o ∧ o.phase ≠ none ∧ o.previousOutput ≠ none ∧
      o.phaseIncrement = none) ∧
    (∃ o : Operator, (readyWith o).ops[0]? = some o ∧ o.phase ≠ none ∧ o.previousOutput ≠ none ∧
      o.phaseIncrement ≠ none ∧ o.multiplier = none) ∧
    (∃ o : Operator, (readyWith o).ops[0]? = some o ∧ o.phase ≠ none ∧ o.previousOutput ≠ none ∧
      o.phaseIncrement ≠ none ∧ o.multiplier ≠ none ∧ o.rectifyEnabled = none) ∧
    (∃ t, selectsOperator (.start 1) = true ∧ returnsResult (.start 1) = false ∧ exec (.start 1) ready = .next t) :=
  ⟨rfl, rfl,
    ⟨{ operator 0#20 0 0#20 1#32 false with previousOutput := none }, rfl, by decide, rfl⟩,
    ⟨{ operator 0#20 0 0#20 1#32 false with phaseIncrement := none }, rfl, by decide, by decide, rfl⟩,
    ⟨{ operator 0#20 0 0#20 1#32 false with multiplier := none }, rfl, by decide, by decide, by decide, rfl⟩,
    ⟨{ operator 0#20 0 0#20 1#32 false with rectifyEnabled := none }, rfl, by decide, by decide, by decide, by decide,
      rfl⟩,
    _, rfl, rfl, rfl⟩

/-- A sum of 8192 and a sum of −1; and the bounds of the safe range. -/
theorem witness_DomainFaultOutsideTable :
    0 ≤ (0#32).toInt ∧ (0#32).toInt ≤ 6054 ∧ 0 ≤ (6054#32).toInt ∧ (6054#32).toInt ≤ 6054 ∧
    (∃ o, ready.ops[0]? = some o ∧ o.phase = some 0#20 ∧ o.previousOutput = some 0#21 ∧
      o.phaseIncrement = some 0x10000#20 ∧ o.multiplier = some 1#32 ∧ o.rectifyEnabled = some false) ∧
    ready.tablesReady = true ∧ ready.romsFilled ∧
    (logSin (realPhaseOf 0#20 0#32) : Int) + (6055#32).toInt = 8192 ∧
    (logSin (realPhaseOf 0#20 0xFF00#32) : Int) + (0xFFFFFFFF#32).toInt = -1 :=
  ⟨by decide, by decide, by decide, by decide, ⟨_, rfl, rfl, rfl, rfl, rfl, rfl⟩, rfl, ready_romsFilled,
    by decide +kernel, by decide +kernel⟩

theorem witness_SafeAttenuationCompletes :
    (∃ o, ready.ops[0]? = some o ∧ o.phase ≠ none ∧ o.previousOutput ≠ none ∧ o.phaseIncrement ≠ none ∧
      o.multiplier ≠ none ∧ o.rectifyEnabled ≠ none) ∧ ready.tablesReady = true ∧ ready.romsFilled ∧
    0 ≤ (6054#32).toInt ∧ (6054#32).toInt ≤ 6054 :=
  ⟨⟨_, rfl, by decide, by decide, by decide, by decide, by decide⟩, rfl, ready_romsFilled, by decide, by decide⟩

theorem witness_SampleValueRanges :
    ready.Inv ∧ (∃ o, ready.ops[0]? = some o ∧ o.previousOutput = some 0#21) ∧
    ∃ t, ready.index < t.index ∧ exec (.fetchSample 0 0#32 0#32 0#32) ready = .next t := by
  have h : (nextOf (exec (.fetchSample 0 0#32 0#32 0#32) ready)).map State.index = some 1 := by decide +kernel
  obtain ⟨t, ht⟩ := exists_of_nextOf (r := exec (.fetchSample 0 0#32 0#32 0#32) ready) (by decide +kernel)
  rw [ht] at h
  have hi : t.index = 1 := by simpa [nextOf] using h
  exact ⟨ready_inv, ⟨_, rfl, rfl⟩, t, by rw [hi]; decide, ht⟩

theorem witness_FirstSampleAfterStart :
    ready.romsFilled ∧ ready.tablesReady = true ∧
    (∃ o, ready.ops[0]? = some o ∧ o.phaseIncrement ≠ none ∧ o.multiplier ≠ none ∧ o.rectifyEnabled ≠ none) ∧
    ∃ t, exec (.start 0) ready = .next t ∧
      ((nextOf (exec (.fetchSample 0 0x20000#32 0#32 6054#32) t)).map State.index = some (t.index + 1)) :=
  ⟨ready_romsFilled, rfl, ⟨_, rfl, by decide, by decide, by decide⟩, _, rfl, by decide +kernel⟩

theorem witness_PhaseWidthIndependent : 20 ≤ 20 := by decide

/-- A multiple of 256, the two exceptions, and two phases of one period. -/
theorem witness_WaveformSymmetries :
    (0x1FF01 < 2 ^ 17 ∧ 0x1FF01 % 256 ≠ 0) ∧ 0x10000 < 2 ^ 17 ∧
    (0x400FF#20).toNat / 2 ^ 8 % 2 ^ 10 = (0#20).toNat / 2 ^ 8 % 2 ^ 10 := by decide

/-- A completed, a held and a faulting FETCH_SAMPLE. -/
theorem witness_FetchSampleFrame :
    (∃ t, exec (.fetchSample 0 0#32 0#32 0#32) ready = .next t) ∧
    (∃ t, exec (.fetchSample 0 0#32 0#32 0#32) waiting = .next t) ∧
    (∃ t, exec (.fetchSample 1 0#32 0#32 0#32) ready = .next t) :=
  ⟨exists_of_nextOf (by decide +kernel), exists_of_nextOf (by decide +kernel), exists_of_nextOf (by decide +kernel)⟩

/-- Both bounds of db, just outside them, and both readiness states. -/
theorem witness_DbToLinearResult :
    ready.romsFilled ∧ waiting.romsFilled ∧ ready.tablesReady = true ∧ waiting.tablesReady = false ∧
    0 ≤ (0#32).toInt ∧ (0#32).toInt ≤ 8191 ∧ 0 ≤ (8191#32).toInt ∧ (8191#32).toInt ≤ 8191 ∧
    (0xFFFFFFFF#32).toInt < 0 ∧ 8191 < (8192#32).toInt :=
  ⟨ready_romsFilled, waiting_romsFilled, rfl, rfl, by decide⟩

/-- The last index of each table and the first outside, and selectors just outside. -/
theorem witness_ReadRomResult :
    ready.romsFilled ∧ waiting.romsFilled ∧ ready.tablesReady = true ∧ waiting.tablesReady = false ∧
    (0#32).toInt = 0 ∧ (255#32).toInt < romSize .exp ∧ (romSize .exp : Int) ≤ (256#32).toInt ∧
    (1#32).toInt = 1 ∧ (255#32).toInt < romSize .logSin ∧ (romSize .logSin : Int) ≤ (256#32).toInt ∧
    (2#32).toInt = 2 ∧ (8191#32).toInt < romSize .fastExp ∧ (romSize .fastExp : Int) ≤ (8192#32).toInt ∧
    (0xFFFFFFFF#32).toInt < 0 ∧ 2 < (3#32).toInt :=
  ⟨ready_romsFilled, waiting_romsFilled, rfl, rfl, by decide⟩

theorem witness_TableCommandFrame :
    ∀ i, i ∈ [Instr.dbToLinear 0 8191#32, .readRom 0 2#32 8191#32, .reserved 0] →
      selectsOperator i = false ∧ (nextOf (exec i ready)).isSome = true := by decide +kernel

theorem witness_FastExpLaws : 2046 + 1 ≤ 2047 ∧ 1792 ≤ 8191 ∧ 8191 ≤ 8191 ∧ 1791 ≤ 1791 := by decide

theorem witness_RomReadWholeWord :
    ready.romRead .exp 255 = some 1018 ∧ ready.romRead .logSin 0 = some 2137 ∧
    ready.romRead .fastExp 0 = some 1045504 := by decide +kernel

theorem witness_GeneratorFillsTables : waiting.Inv ∧ waiting.romMode = .generated := ⟨waiting_inv, rfl⟩

/-- Both realisations; a state in which GEN_FASTEXP is enabled; and in GENERATED mode a GEN_FASTEXP that is not enabled, a
repeated GEN_EXP and a repeated GEN_LOGSIN. -/
theorem witness_GeneratorTurnFrame :
    ready.romMode = .precomputed ∧ waiting.romMode = .generated ∧
    genEnabled .genFastExp (genLogSin (genExp waiting)) = true ∧
    (genLogSin (genExp waiting)).expDone = true ∧ (genLogSin (genExp waiting)).logSinDone = true ∧
    genEnabled .genFastExp waiting = false ∧ waiting.expDone = false ∧ waiting.logSinDone = false ∧
    genEnabled .genExp (genExp waiting) = false ∧ (genExp waiting).romMode = .generated ∧
    genEnabled .genLogSin (genLogSin waiting) = false ∧ (genLogSin waiting).logSinDone = true ∧
    ready.fastExpDone = true :=
  ⟨rfl, rfl, rfl, rfl, rfl, rfl, rfl, rfl, rfl, rfl, rfl, rfl, rfl⟩

theorem witness_OnlyGeneratorWritesRoms :
    (∃ t, exec (.start 0) waiting = .next t) ∧
    (∃ t, step waiting = .next t ∧ t.exp ≠ waiting.exp) ∧
    (∃ t, step ready = .next t ∧ ready.expDone = true ∧ ready.logSinDone = true ∧ ready.fastExpDone = true) := by
  have h : (genExp waiting).exp ≠ [] := by decide +kernel
  exact ⟨⟨_, rfl⟩, ⟨_, rfl, h⟩, _, rfl, rfl, rfl, rfl⟩

theorem witness_ReadyTablesStayConstant :
    ∃ t, step (ready.withFetchWord 8 0x03) = .next t ∧ (ready.withFetchWord 8 0x03).tablesReady = true ∧
      (ready.withFetchWord 8 0x03).expDone = true := ⟨_, rfl, rfl, rfl⟩

/-- A held command of each kind, and the four that are never held. -/
theorem witness_RomReadersAreHeld :
    waiting.tablesReady = false ∧
    (∀ i, i ∈ [Instr.fetchSample 0 0#32 0#32 0#32, .dbToLinear 0 8191#32, .readRom 0 1#32 255#32] →
      i.admitted waiting.nOperators = true ∧ returnsResult i = true) ∧
    (∃ o, waiting.ops[0]? = some o ∧ o.phase ≠ none ∧ o.previousOutput ≠ none ∧ o.phaseIncrement ≠ none ∧
      o.multiplier ≠ none ∧ o.rectifyEnabled ≠ none) ∧
    (∀ i, i ∈ [Instr.setFrequency 1 1#32 31#32, .setMultiplier 1 1#32, .setRectify 1 true, .start 1] →
      i.admitted waiting.nOperators = true ∧ returnsResult i = false) :=
  ⟨rfl, by decide, ⟨_, rfl, by decide, by decide, by decide, by decide, by decide⟩, by decide⟩

theorem witness_HoldLiftsWithinThreeSteps :
    waiting.Inv ∧ waiting.fault = none ∧ waiting.schedule = [] ∧ waiting.tablesReady = false :=
  ⟨waiting_inv, rfl, rfl, rfl⟩

theorem witness_ReservedSelectorFaults : (Command.mk 0 0b110#3 0#32 0#32 0#32).op ≠ 0b111#3 := by decide

theorem witness_MissingInstanceFaults :
    ∀ i, i ∈ [Instr.setFrequency 2 1#32 40#32, .setMultiplier 2 0#32, .setRectify 2 true, .start 2,
        .fetchSample 2 0#32 0#32 0#32] →
      selectsOperator i = true ∧ ready.nOperators ≤ i.id ∧ waiting.nOperators ≤ i.id := by decide

/-- One fault of each kind, from a state with none. -/
theorem witness_FaultRecordContents :
    ready.fault = none ∧ codeOf (exec (.reserved 0) ready) = some 1 ∧ codeOf (exec (.start 2) ready) = some 2 ∧
    codeOf (exec (.fetchSample 1 0#32 0#32 0#32) ready) = some 3 ∧
    codeOf (exec (.fetchSample 0 0#32 0#32 0x100000#32) ready) = some 4 := by decide +kernel

/-- A command that faults; and a faulted core in each realisation, with a command to run and with a generator's turn. -/
theorem witness_FaultPreciseStickyHalting :
    (∃ t, ready.fault = none ∧ exec (.reserved 0) ready = .next t ∧ t.fault ≠ none) ∧
    (∃ r, faulted.fault = some r ∧ nextTurn faulted = .commandUnit ∧ ∃ t, exec (.start 0) faulted = .next t) ∧
    (∃ r, (waiting.takeFault 0 0b111#3 (.op 0b111#3)).fault = some r ∧
      nextTurn (waiting.takeFault 0 0b111#3 (.op 0b111#3)) = .generator .genExp) :=
  ⟨⟨_, rfl, rfl, by intro h; cases h⟩, ⟨_, rfl, rfl, _, rfl⟩, _, rfl, rfl⟩

/-- Each clause: a missing ID, a selector on each side, a failing operand, a ⊥ register, a fault before the hold. -/
theorem witness_FaultOrder :
    (selectsOperator (.setFrequency 2 1#32 40#32) = true ∧
      ready.nOperators ≤ (Instr.setFrequency 2 1#32 40#32).id) ∧
    ((0xFFFFFFFF#32).toInt < 0 ∧ 2 < (3#32).toInt) ∧
    ((Instr.readRom 0 0#32 256#32).admitted ready.nOperators = false ∧ ∀ id, Instr.readRom 0 0#32 256#32 ≠ .reserved id) ∧
    (ready.ops[1]? = some Operator.powerOn ∧ Operator.powerOn.phase = none) ∧
    (∃ t r, waiting.tablesReady = false ∧ waiting.fault = none ∧
      exec (.fetchSample 1 0#32 0#32 0x100000#32) waiting = .next t ∧ t.fault = some r) :=
  ⟨by decide, by decide, ⟨by decide, fun _ h => by cases h⟩, ⟨rfl, rfl⟩, _, _, rfl, rfl, rfl, rfl⟩

/-- A core whose next command is START, and one on which the host drives the word of START. -/
theorem witness_StepRunsDecodedCommand :
    (∃ s : State, s.fault = none ∧ nextTurn s = .commandUnit ∧ s.commands = encode (.start 1) :: []) ∧
    ready.fault = none ∧ decodeTableWord 8 0x0B = some (.start 1) :=
  ⟨⟨{ ready with commands := [encode (.start 1)] }, rfl, rfl, rfl⟩, rfl, by decide⟩

theorem witness_CommandsExecuteInOrder : ∃ t, step (ready.withFetchWord 8 0x03) = .next t := ⟨_, rfl⟩

/-- A completed command that drives Y, one that does not, and a fault. -/
theorem witness_ResultPortDrivenByResultCommands :
    ((nextOf (exec (.dbToLinear 0 8191#32) ready)).map State.index = some (ready.index + 1)) ∧
    ((nextOf (exec (.start 0) ready)).map State.index = some (ready.index + 1)) ∧
    (ready.fault = none ∧ codeOf (exec (.reserved 0) ready) ≠ none) := by decide +kernel

theorem witness_IdleCoreWaits : ready.endedNormally ∧ nextTurn ready = .commandUnit := ⟨⟨rfl, rfl⟩, rfl⟩

/-- Two instances, and a table command beside an instance of its own ID. -/
theorem witness_InstancesAreIndependent :
    ready.tablesReady = true ∧ (Instr.start 0).id ≠ (Instr.setMultiplier 1 1#32).id ∧
    selectsOperator (.dbToLinear 0 0#32) = false ∧
    ∃ t u t' u', exec (.start 0) ready = .next t ∧ exec (.setMultiplier 1 1#32) t = .next u ∧
      exec (.setMultiplier 1 1#32) ready = .next t' ∧ exec (.start 0) t' = .next u' :=
  ⟨rfl, by decide, rfl, _, _, _, _, rfl, rfl, rfl, rfl⟩

/-- Two different states with one view: raw F-number and multiplier differ. -/
theorem witness_StepDependsOnlyOnView :
    (readyWith { operator 0#20 0 1#20 1#32 false with fNumber := some 5#32, multiplier := some 0x100001#32 }).view =
      (readyWith (operator 0#20 0 1#20 1#32 false)).view ∧
    readyWith { operator 0#20 0 1#20 1#32 false with fNumber := some 5#32, multiplier := some 0x100001#32 } ≠
      readyWith (operator 0#20 0 1#20 1#32 false) := by decide

/-- A GENERATED run with a chosen turn, and the PRECOMPUTED run of the same stream. -/
theorem witness_RealisationsAgree :
    (1 : Nat) ≤ 1 ∧
    (∃ t, Host.Core.run core 1 { State.powerOn .generated 1 with
      commands := [encode (.start 0)], schedule := [.commandUnit] } = .next t) ∧
    (∃ u, Host.Core.run core 1 { State.powerOn .precomputed 1 with commands := [encode (.start 0)] } = .next u) :=
  ⟨le_refl 1, ⟨_, rfl⟩, _, rfl⟩

end Sys2Proof.Tests
end

/-! # Proofs: the width of the ID port -/

namespace Sys2Proof

/-- The Galois form of "ceiling of log2, and at least 1" (R6): a width of at least 1 is wide enough for `n`
instances exactly when `idWidth n` is no wider. -/
theorem idWidth_le_iff {n k : Nat} (hk : 1 ≤ k) : idWidth n ≤ k ↔ n ≤ 2 ^ k := by
  unfold idWidth
  split
  · have : 2 ^ 1 ≤ 2 ^ k := Nat.pow_le_pow_right two_pos hk
    omega
  · have hlog : Nat.log2 (n - 1) < k ↔ n - 1 < 2 ^ k := Nat.log2_lt (by omega)
    omega

theorem one_le_idWidth (n : Nat) : 1 ≤ idWidth n := by
  unfold idWidth
  split <;> omega

/-- Settles O8: both bounds are the Galois form, read at the width itself and one below it. -/
theorem idWidthIsCeilLog : Obligations.IdWidthIsCeilLog := by
  intro n _
  refine ⟨one_le_idWidth n, (idWidth_le_iff (one_le_idWidth n)).mp le_rfl, fun hwide => ?_⟩
  have hbelow : idWidth n ≤ idWidth n - 1 ↔ n ≤ 2 ^ (idWidth n - 1) := idWidth_le_iff (by omega)
  omega

end Sys2Proof

/-! # Proofs: what a generator turn does -/

namespace Sys2Proof.Machine

/-- With the tables ready every generator step is done, so its turn changes nothing (R100). -/
theorem generatorTurn_of_tablesReady {s : State} (g : GenStep) (h : s.tablesReady = true) : generatorTurn g s = s := by
  simp only [State.tablesReady, Bool.and_eq_true] at h
  obtain ⟨⟨he, hl⟩, hf⟩ := h
  have hoff : genEnabled g s = false := by cases g <;> simp [genEnabled, he, hl, hf]
  simp [generatorTurn, hoff]

/-- A generator turn clears no progress bit. -/
theorem generatorTurn_keeps_done (g : GenStep) (s : State) :
    (s.expDone = true → (generatorTurn g s).expDone = true) ∧
    (s.logSinDone = true → (generatorTurn g s).logSinDone = true) ∧
    (s.fastExpDone = true → (generatorTurn g s).fastExpDone = true) := by
  unfold generatorTurn
  split
  · cases g <;> simp [genWrite]
  · exact ⟨id, id, id⟩

/-- An enabled generator step keeps the invariant. -/
theorem genWrite_inv {g : GenStep} {s : State} (h : s.Inv) (hg : genEnabled g s = true) : (genWrite g s).Inv := by
  have hmode : s.romMode ≠ .precomputed := fun hm => by simp [genEnabled, hm] at hg
  cases g with
  | genExp =>
    exact { h with
      canonical := genExp_romsWf h.canonical
      expFilled := fun _ => genExp_holds h.canonical
      slowFirst := fun hf => ⟨rfl, (h.slowFirst hf).2⟩
      precomputedReady := fun hm => absurd hm hmode }
  | genLogSin =>
    exact { h with
      canonical := genLogSin_romsWf h.canonical
      logSinFilled := fun _ => genLogSin_holds h.canonical
      slowFirst := fun hf => ⟨(h.slowFirst hf).1, rfl⟩
      precomputedReady := fun hm => absurd hm hmode }
  | genFastExp =>
    simp only [genEnabled, Bool.and_eq_true] at hg
    obtain ⟨-, hslow, -⟩ := hg
    exact { h with
      canonical := genFastExp_romsWf h.canonical
      fastExpFilled := fun _ => genFastExp_holds h.canonical (h.expFilled hslow.1)
      slowFirst := fun _ => hslow
      precomputedReady := fun hm => absurd hm hmode }

theorem generatorTurn_inv {s : State} (g : GenStep) (h : s.Inv) : (generatorTurn g s).Inv := by
  unfold generatorTurn
  split
  · exact genWrite_inv h ‹_›
  · exact h

theorem dropTurn_inv {s : State} (h : s.Inv) : (dropTurn s).Inv := { h with }

/-- Settles O36: a generator turn clears no bit and does nothing once the tables are ready; commands keep bits and ROMs. -/
theorem readyTablesStayConstant : Obligations.ReadyTablesStayConstant := by
  intro s t h
  obtain ⟨g, -, -, rfl⟩ | ⟨-, -, -, rfl⟩ | ⟨c, rest, -, -, -, hexec⟩ := step_cases h
  · obtain ⟨he, hl, hf⟩ := generatorTurn_keeps_done g (dropTurn s)
    refine ⟨he, hl, hf, fun hr => ?_⟩
    rw [generatorTurn_of_tablesReady (s := dropTurn s) g hr]
    exact ⟨hr, fun _ _ => rfl⟩
  · exact ⟨id, id, id, fun hr => ⟨hr, fun _ _ => rfl⟩⟩
  · obtain ⟨-, -, -, he, hl, hf, -, -⟩ := exec_keeps_roms hexec
    refine ⟨he.trans, hl.trans, hf.trans, fun hr => ⟨(exec_tablesReady hexec).trans hr, fun rom i => ?_⟩⟩
    exact exec_romRead hexec rom i

end Sys2Proof.Machine

/-! # Proofs: what a command writes into its operator -/

namespace Sys2Proof.Machine

/-- What each configuration command writes into its operator once its operand has passed (R130 to R133). -/
inductive Configures : Instr → Operator → Operator → Prop where
  | frequency (id : Nat) (fNumber octave : Word) (k : Nat) (o : Operator) (h : octaveOf octave = some k) :
      Configures (.setFrequency id fNumber octave) o
        { o with fNumber := some fNumber, phaseIncrement := some (phaseIncrementOf fNumber k) }
  | multiplier (id : Nat) (mult m : Word) (o : Operator) (h : multOf mult = some m) :
      Configures (.setMultiplier id mult) o { o with multiplier := some m }
  | rectify (id : Nat) (enabled : Bool) (o : Operator) :
      Configures (.setRectify id enabled) o { o with rectifyEnabled := some enabled }
  | start (id : Nat) (o : Operator) :
      Configures (.start id) o { o with phase := some 0#20, previousOutput := some 0#21 }

/-- A command on an operator raises OperandFault for its ID, or does `k` with the operator it selects. -/
theorem withOperator_cases {s : State} {id : Nat} {op : Opcode} {k : Operator → Result} {t : State}
    (h : withOperator s id op k = .next t) :
    t = s.takeFault id op (.operand .id id) ∨ ∃ o, s.ops[id]? = some o ∧ k o = .next t := by
  cases ho : s.ops[id]? with
  | none =>
    rw [withOperator_none _ _ ((ops_none_iff s id).mp ho)] at h
    cases h
    exact .inl rfl
  | some o => exact .inr ⟨o, rfl, by rwa [withOperator_some _ _ ho] at h⟩

/-- A configuration command raises OperandFault, or writes its operator and completes. -/
theorem exec_configuration_cases {i : Instr} {s t : State} (hs : selectsOperator i = true)
    (hr : returnsResult i = false) (h : exec i s = .next t) :
    (∃ which value, t = s.takeFault i.id i.op (.operand which value)) ∨
    (∃ o o', s.ops[i.id]? = some o ∧ Configures i o o' ∧ t = (s.setOp i.id o').complete none) := by
  cases i with
  | setFrequency id fNumber octave =>
    obtain rfl | ⟨o, ho, hk⟩ := withOperator_cases h
    · exact .inl ⟨_, _, rfl⟩
    · split at hk <;> cases hk
      · exact .inl ⟨_, _, rfl⟩
      · exact .inr ⟨o, _, ho, .frequency _ _ _ _ _ ‹_›, rfl⟩
  | setMultiplier id mult =>
    obtain rfl | ⟨o, ho, hk⟩ := withOperator_cases h
    · exact .inl ⟨_, _, rfl⟩
    · split at hk <;> cases hk
      · exact .inl ⟨_, _, rfl⟩
      · exact .inr ⟨o, _, ho, .multiplier _ _ _ _ ‹_›, rfl⟩
  | setRectify id enabled =>
    obtain rfl | ⟨o, ho, hk⟩ := withOperator_cases h
    · exact .inl ⟨_, _, rfl⟩
    · cases hk
      exact .inr ⟨o, _, ho, .rectify .., rfl⟩
  | start id =>
    obtain rfl | ⟨o, ho, hk⟩ := withOperator_cases h
    · exact .inl ⟨_, _, rfl⟩
    · cases hk
      exact .inr ⟨o, _, ho, .start .., rfl⟩
  | fetchSample => cases hr
  | dbToLinear => cases hs
  | readRom => cases hs
  | reserved => cases hs

/-- A FETCH_SAMPLE over filled ROMs leaves the operators, or writes a sample of some FASTEXP word into its own. -/
theorem exec_fetchSample_ops {id : Nat} {freqDiff vib ampDiff : Word} {s t : State} (hf : s.romsFilled)
    (h : exec (.fetchSample id freqDiff vib ampDiff) s = .next t) :
    t.ops = s.ops ∨ ∃ o r negate db, s.ops[id]? = some o ∧
      t.ops = s.ops.set id (sampledOperator o r vib (signedOutput negate r.rectifyEnabled (fastExpContents db))) := by
  obtain rfl | ⟨o, ho, hk⟩ := withOperator_cases h
  · exact .inl rfl
  · cases hr : sampleRegs o with
    | error field =>
      simp only [hr, raise] at hk
      cases hk
      exact .inl rfl
    | ok r =>
      cases ht : s.tablesReady with
      | false =>
        simp only [hr, ht, hold] at hk
        cases hk
        exact .inl rfl
      | true =>
        change execFetchSample id freqDiff vib ampDiff s = .next t at h
        rw [execFetchSample_filled ho hr ht hf] at h
        split at h <;> cases h
        · exact .inr ⟨o, r, _, _, ho, rfl⟩
        · exact .inl rfl

end Sys2Proof.Machine

/-! # Proofs: the register ranges and the invariant -/

namespace Sys2Proof.Machine

/-- The words of FASTEXP are multiples of 4 (R108): the shift of `dbToLinear` is at least 2. -/
theorem fastExpContents_mod_four (db : Nat) : fastExpContents db % 4 = 0 := by
  rw [fastExpContents_eq, dbToLinear_eq, Nat.pow_add, ← Nat.mul_assoc]
  exact Nat.mul_mod_left _ 4

/-- The range of `previousOutput` holds of 0 and of every word of FASTEXP with either sign (R160). -/
theorem signedOutput_range (negate rectifyEnabled : Bool) (db : Nat) :
    (signedOutput negate rectifyEnabled (fastExpContents db) = 0 ∨
      (4096 ≤ (signedOutput negate rectifyEnabled (fastExpContents db)).natAbs ∧
        (signedOutput negate rectifyEnabled (fastExpContents db)).natAbs ≤ 1045504)) ∧
    signedOutput negate rectifyEnabled (fastExpContents db) % 4 = 0 := by
  have hmod := fastExpContents_mod_four db
  obtain ⟨hlow, hhigh⟩ := dbToLinear_bounds db
  rw [← fastExpContents_eq] at hlow hhigh
  generalize fastExpContents db = linear at *
  cases negate <;> cases rectifyEnabled <;> simp only [signedOutput] <;> omega

/-- 21 signed bits hold every output exactly (R27, R160). -/
theorem toInt_ofInt_signedOutput (negate rectifyEnabled : Bool) (db : Nat) :
    (BitVec.ofInt 21 (signedOutput negate rectifyEnabled (fastExpContents db))).toInt =
      signedOutput negate rectifyEnabled (fastExpContents db) := by
  have hrange := (signedOutput_range negate rectifyEnabled db).1
  exact BitVec.toInt_ofInt_eq_self (by decide) (by omega) (by omega)

/-- A multiplier that passes its check is its own port pattern, read as positive (R131). -/
theorem multOf_range {mult m : Word} (h : multOf mult = some m) : 1 ≤ m.toNat ∧ m.toNat < 2 ^ 31 := by
  unfold multOf at h
  split at h
  · rename_i hpos
    cases h
    rw [sext32, BitVec.toInt_eq_toNat_cond] at hpos
    split at hpos <;> omega
  · cases h

theorem Configures.wf {i : Instr} {o o' : Operator} (hc : Configures i o o') (h : o.Wf) : o'.Wf := by
  cases hc with
  | frequency => exact { h with phaseIncrement := fun p _ => p.isLt }
  | multiplier _ _ m _ hm => exact { h with multiplier := fun _ hv => Option.some.inj hv ▸ multOf_range hm }
  | rectify => exact { h with }
  | start =>
    exact { h with
      phase := fun p _ => p.isLt
      previousOutput := fun _ hv => Option.some.inj hv ▸ ⟨.inl rfl, rfl⟩ }

theorem sampledOperator_wf {o : Operator} {r : SampleRegs} {vib : Word} {negate rectifyEnabled : Bool} {db : Nat}
    (h : o.Wf) : (sampledOperator o r vib (signedOutput negate rectifyEnabled (fastExpContents db))).Wf :=
  { h with
    phase := fun p _ => p.isLt
    previousOutput := fun v hv => by
      obtain rfl := Option.some.inj hv
      rw [toInt_ofInt_signedOutput]
      exact signedOutput_range negate rectifyEnabled db }

/-- Writing an operator in range back keeps every operator in range. -/
theorem forall_wf_set {ops : List Operator} {id : Nat} {o' : Operator} (h : ∀ o ∈ ops, o.Wf) (ho' : o'.Wf) :
    ∀ o ∈ ops.set id o', o.Wf := fun o ho => by
  obtain hmem | rfl := List.mem_or_eq_of_mem_set ho
  · exact h o hmem
  · exact ho'

/-- Every command keeps the operators' registers in their ranges. -/
theorem exec_operators_wf {i : Instr} {s t : State} (hf : s.romsFilled) (hw : ∀ o ∈ s.ops, o.Wf)
    (h : exec i s = .next t) : ∀ o ∈ t.ops, o.Wf := by
  cases hs : selectsOperator i with
  | false =>
    have hops : t.ops = s.ops := by
      cases exec_shape h with
      | wrote ho => simp [hs] at ho
      | _ => rfl
    rwa [hops]
  | true =>
    cases hr : returnsResult i with
    | false =>
      obtain ⟨_, _, rfl⟩ | ⟨o, o', ho, hc, rfl⟩ := exec_configuration_cases hs hr h
      · exact hw
      · exact forall_wf_set hw (hc.wf (hw o (List.mem_of_getElem? ho)))
    | true =>
      cases i with
      | fetchSample =>
        obtain hops | ⟨o, r, _, _, ho, hops⟩ := exec_fetchSample_ops hf h <;> rw [hops]
        · exact hw
        · exact forall_wf_set hw (sampledOperator_wf (hw o (List.mem_of_getElem? ho)))
      | setFrequency | setMultiplier | setRectify | start => cases hr
      | dbToLinear | readRom | reserved => cases hs

/-- Every command keeps the invariant. -/
theorem exec_inv {i : Instr} {s t : State} (h : s.Inv) (hexec : exec i s = .next t) : t.Inv := by
  have hops := exec_operators_wf h.romsFilled h.operators hexec
  cases exec_shape hexec with
  | raised info => exact { h with faultRecord := fun _ hr => Option.some.inj hr ▸ ⟨rfl, rfl⟩ }
  | held => exact h
  | read => exact { h with }
  | wrote => exact { h with operators := hops, someOperator := by simpa using h.someOperator }

/-- Settles O11: each agent's turn keeps the invariant. -/
theorem stepKeepsInvariant : Obligations.StepKeepsInvariant := by
  intro s t h hstep
  obtain ⟨g, -, -, rfl⟩ | ⟨-, -, -, rfl⟩ | ⟨c, rest, -, -, -, hexec⟩ := step_cases hstep
  · exact generatorTurn_inv g (dropTurn_inv h)
  · exact dropTurn_inv h
  · exact exec_inv (dropTurn_inv h) hexec

end Sys2Proof.Machine

/-! # Proofs: the unwritten registers -/

namespace Sys2Proof.Machine

/-- FETCH_SAMPLE raises UnwrittenFault for the register that `sampleRegs` names (R28, R201). -/
theorem exec_fetchSample_unwritten {id : Nat} {freqDiff vib ampDiff : Word} {s : State} {o : Operator}
    {field : UnwrittenField} (ho : s.ops[id]? = some o) (hr : sampleRegs o = .error field) :
    exec (.fetchSample id freqDiff vib ampDiff) s = .next (s.takeFault id opFetchSample (.unwritten field)) := by
  simp only [exec, execFetchSample, withOperator_some _ _ ho, hr, raise]

/-- `sampleRegs` names the first unwritten register in the order of R201. -/
theorem sampleRegs_unwritten (o : Operator) :
    (o.phase = none → sampleRegs o = .error .phase) ∧
    (o.phase ≠ none → o.previousOutput = none → sampleRegs o = .error .previousOutput) ∧
    (o.phase ≠ none → o.previousOutput ≠ none → o.phaseIncrement = none → sampleRegs o = .error .phaseIncrement) ∧
    (o.phase ≠ none → o.previousOutput ≠ none → o.phaseIncrement ≠ none → o.multiplier = none →
      sampleRegs o = .error .multiplier) ∧
    (o.phase ≠ none → o.previousOutput ≠ none → o.phaseIncrement ≠ none → o.multiplier ≠ none →
      o.rectifyEnabled = none → sampleRegs o = .error .rectifyEnabled) := by
  obtain ⟨multiplier, phaseIncrement, fNumber, rectifyEnabled, phase, previousOutput⟩ := o
  rcases phase with _ | _
  · simp [sampleRegs]
  rcases previousOutput with _ | _
  · simp [sampleRegs]
  rcases phaseIncrement with _ | _
  · simp [sampleRegs]
  rcases multiplier with _ | _
  · simp [sampleRegs]
  rcases rectifyEnabled with _ | _ <;> simp [sampleRegs]

/-- Settles O20: FETCH_SAMPLE faults on the register that `sampleRegs` names, and a configuration command's only fault is
OperandFault. -/
theorem unwrittenRegisterFaults : Obligations.UnwrittenRegisterFaults := by
  refine ⟨fun id freqDiff vib ampDiff s o ho => ?_, fun i s t hs hr h => ?_⟩
  · obtain ⟨hphase, hprevious, hincrement, hmultiplier, hrectify⟩ := sampleRegs_unwritten o
    exact ⟨fun h1 => exec_fetchSample_unwritten ho (hphase h1),
      fun h1 h2 => exec_fetchSample_unwritten ho (hprevious h1 h2),
      fun h1 h2 h3 => exec_fetchSample_unwritten ho (hincrement h1 h2 h3),
      fun h1 h2 h3 h4 => exec_fetchSample_unwritten ho (hmultiplier h1 h2 h3 h4),
      fun h1 h2 h3 h4 h5 => exec_fetchSample_unwritten ho (hrectify h1 h2 h3 h4 h5)⟩
  · obtain ⟨which, value, rfl⟩ | ⟨_, _, -, -, rfl⟩ := exec_configuration_cases hs hr h
    · exact .inr ⟨_, rfl, rfl⟩
    · exact .inl rfl

end Sys2Proof.Machine

/-! # Proofs: commands see an operator through its view only -/

namespace Sys2Proof.Machine

/-! ## The view of a state -/

@[simp] theorem Operator.view_view (o : Operator) : o.view.view = o.view := by
  cases hm : o.multiplier <;> simp [Operator.view, hm]

/-- Writing every register but the multiplier gives the same view to an operator and to its view. -/
theorem Operator.view_write (o : Operator) (increment : Option (BitVec 20)) (fNumber : Option (BitVec 32))
    (rectify : Option Bool) (phase : Option (BitVec 20)) (previous : Option (BitVec 21)) :
    (Operator.mk o.view.multiplier increment fNumber rectify phase previous).view =
      (Operator.mk o.multiplier increment fNumber rectify phase previous).view :=
  congrArg (fun v : Operator => Operator.mk v.multiplier increment none rectify phase previous) o.view_view

@[simp] theorem State.view_view (s : State) : s.view.view = s.view := by simp [State.view]

@[simp] theorem State.view_romRead (s : State) (rom : RomName) (i : Nat) : s.view.romRead rom i = s.romRead rom i := rfl

theorem State.view_getElem?_ops (s : State) (id : Nat) : s.view.ops[id]? = (s.ops[id]?).map Operator.view :=
  List.getElem?_map

@[simp] theorem State.setOp_view (s : State) (id : Nat) (o : Operator) : (s.setOp id o).view = s.view.setOp id o.view := by
  simp [State.view, State.setOp, List.map_set]

@[simp] theorem State.complete_view (s : State) (y : Option Word) : (s.complete y).view = s.view.complete y := rfl
@[simp] theorem State.takeFault_view (s : State) (id : Nat) (op : Opcode) (info : FaultInfo) :
    (s.takeFault id op info).view = s.view.takeFault id op info := rfl
@[simp] theorem dropTurn_view (s : State) : (dropTurn s).view = dropTurn s.view := rfl

theorem genWrite_view (g : GenStep) (s : State) : (genWrite g s).view = genWrite g s.view := by cases g <;> rfl

theorem generatorTurn_view (g : GenStep) (s : State) : (generatorTurn g s).view = generatorTurn g s.view := by
  have hen : genEnabled g s.view = genEnabled g s := rfl
  simp only [generatorTurn, hen, ← genWrite_view]
  split <;> rfl

/-! ## The view of an outcome -/

/-- An outcome with its next state seen through `State.view`. -/
def viewOutcome : Result → Result
  | .next s => .next s.view
  | .fault r => .fault r
  | .refused r => .refused r

theorem sameView_iff {r q : Result} : sameView r q ↔ viewOutcome r = viewOutcome q := by
  cases r <;> cases q <;> simp [sameView, viewOutcome]

/-- Where `k` and `k'` agree up to the view on every operator and its view, so does selecting the operator first. -/
theorem withOperator_view (s : State) (id : Nat) (op : Opcode) {k k' : Operator → Result}
    (h : ∀ o, viewOutcome (k' o.view) = viewOutcome (k o)) :
    viewOutcome (withOperator s.view id op k') = viewOutcome (withOperator s id op k) := by
  simp only [withOperator, State.view_getElem?_ops]
  cases s.ops[id]? with
  | none => simp [raise, viewOutcome]
  | some o => exact h o

theorem raise_view (s : State) (id : Nat) (op : Opcode) (info : FaultInfo) :
    viewOutcome (raise s.view id op info) = viewOutcome (raise s id op info) := by simp [raise, viewOutcome]

theorem hold_view (s : State) : viewOutcome (hold s.view) = viewOutcome (hold s) := by simp [hold, viewOutcome]

theorem finishConfig_view (s : State) (id : Nat) {o o' : Operator} (h : o'.view = o.view) :
    viewOutcome (finishConfig s.view id o') = viewOutcome (finishConfig s id o) := by
  simp [finishConfig, viewOutcome, h]

/-- A state and its view are held alike, and go on alike once the tables are ready. -/
theorem ready_or_hold_view (s : State) {r r' : Result} (h : viewOutcome r' = viewOutcome r) :
    viewOutcome (if s.view.tablesReady then r' else hold s.view) = viewOutcome (if s.tablesReady then r else hold s) := by
  have hready : s.view.tablesReady = true ↔ s.tablesReady = true := Iff.rfl
  simp only [hready]
  split
  · exact h
  · exact hold_view s

theorem finishRead_view (s : State) (id : Nat) (op : Opcode) (rom : RomName) (i : Nat) :
    viewOutcome (finishRead s.view id op rom i) = viewOutcome (finishRead s id op rom i) := by
  refine ready_or_hold_view s ?_
  simp only [State.view_romRead]
  split
  · exact raise_view ..
  · simp [viewOutcome]

/-! ## FETCH_SAMPLE -/

/-- The five registers with the multiplier reduced as `Operator.view` reduces it. -/
def SampleRegs.view (r : SampleRegs) : SampleRegs := { r with multiplier := BitVec.ofNat 32 (r.multiplier.toNat % 2 ^ 20) }

theorem sampleRegs_view (o : Operator) : sampleRegs o.view = (sampleRegs o).map SampleRegs.view := by
  obtain ⟨multiplier, phaseIncrement, fNumber, rectifyEnabled, phase, previousOutput⟩ := o
  rcases phase with _ | _
  · rfl
  rcases previousOutput with _ | _
  · rfl
  rcases phaseIncrement with _ | _
  · rfl
  rcases multiplier with _ | _
  · rfl
  rcases rectifyEnabled with _ | _ <;> rfl

/-- The phase is kept mod 2^20, so the multiplier's residue mod 2^20 decides it (R22, R152). -/
theorem phaseAdvance_view (r : SampleRegs) (vib : Word) :
    phaseAdvance r.view.phase r.view.phaseIncrement r.view.multiplier vib =
      phaseAdvance r.phase r.phaseIncrement r.multiplier vib := by
  have hmult : BitVec.ofNat 20 r.view.multiplier.toNat = BitVec.ofNat 20 r.multiplier.toNat := by
    apply BitVec.eq_of_toNat_eq
    simp only [SampleRegs.view, BitVec.toNat_ofNat]
    omega
  simp only [phaseAdvance, BitVec.ofInt_add, BitVec.ofInt_mul, BitVec.ofInt_natCast, hmult]
  rfl

theorem sampledOperator_view (o : Operator) (r : SampleRegs) (vib : Word) (output : Int) :
    (sampledOperator o.view r.view vib output).view = (sampledOperator o r vib output).view := by
  simp only [sampledOperator, phaseAdvance_view]
  exact o.view_write ..

theorem finishSample_view (s : State) (id : Nat) (o : Operator) (r : SampleRegs) (realPhase : BitVec 20) (vib : Word)
    (linear : Nat) :
    viewOutcome (finishSample s.view id o.view r.view realPhase vib linear) =
      viewOutcome (finishSample s id o r realPhase vib linear) := by
  simp only [finishSample, viewOutcome, State.complete_view, State.setOp_view, State.view_view, sampledOperator_view]
  rfl

theorem sampleLookup_view (s : State) (id : Nat) (o : Operator) (r : SampleRegs) (realPhase : BitVec 20)
    (vib ampDiff : Word) :
    viewOutcome (sampleLookup s.view id o.view r.view realPhase vib ampDiff) =
      viewOutcome (sampleLookup s id o r realPhase vib ampDiff) := by
  simp only [sampleLookup, State.view_romRead]
  split
  · exact raise_view ..
  · split
    · split
      · exact raise_view ..
      · exact finishSample_view ..
    · exact raise_view ..

theorem exec_fetchSample_view (id : Nat) (freqDiff vib ampDiff : Word) (s : State) :
    viewOutcome (exec (.fetchSample id freqDiff vib ampDiff) s.view) =
      viewOutcome (exec (.fetchSample id freqDiff vib ampDiff) s) := by
  refine withOperator_view s id opFetchSample fun o => ?_
  simp only [sampleRegs_view]
  cases sampleRegs o with
  | error field => exact raise_view ..
  | ok r => exact ready_or_hold_view s (sampleLookup_view ..)

/-! ## Every command and every step -/

/-- A command gives the same from a state and from its view, seen through the view. -/
theorem exec_view (i : Instr) (s : State) : viewOutcome (exec i s.view) = viewOutcome (exec i s) := by
  cases i with
  | setFrequency id fNumber octave =>
    refine withOperator_view s id opSetFrequency fun o => ?_
    split
    · exact raise_view ..
    · exact finishConfig_view s id (o.view_write ..)
  | setMultiplier id mult =>
    refine withOperator_view s id opSetMultiplier fun o => ?_
    split
    · exact raise_view ..
    · exact finishConfig_view s id rfl
  | setRectify id enabled =>
    exact withOperator_view s id opSetRectify fun o => finishConfig_view s id (o.view_write ..)
  | start id =>
    exact withOperator_view s id opStart fun o => finishConfig_view s id (o.view_write ..)
  | fetchSample => exact exec_fetchSample_view ..
  | dbToLinear id db =>
    simp only [exec, execDbToLinear]
    split
    · exact raise_view ..
    · exact finishRead_view ..
  | readRom id sel index =>
    simp only [exec, execReadRom]
    split
    · exact raise_view ..
    · split
      · exact raise_view ..
      · exact finishRead_view ..
  | reserved id => exact raise_view ..

theorem agentTurn_view (a : Turn) (s : State) : viewOutcome (agentTurn a s.view) = viewOutcome (agentTurn a s) := by
  cases a with
  | generator g => simp [agentTurn, viewOutcome, ← generatorTurn_view]
  | commandUnit =>
    have hview : s.view.commands = s.commands := rfl
    simp only [agentTurn, commandTurn, hview]
    split
    · simp [viewOutcome]
    · exact exec_view ..

theorem step_view (s : State) : viewOutcome (step s.view) = viewOutcome (step s) := by
  have hfault : s.view.fault = s.fault := rfl
  cases hf : s.fault with
  | some r => rw [step_of_fault hf, step_of_fault (hfault.trans hf)]
  | none =>
    rw [step_of_no_fault hf, step_of_no_fault (hfault.trans hf)]
    exact agentTurn_view (nextTurn s) (dropTurn s)

/-- Settles O50: each of the two steps agrees with the step of the view they share. -/
theorem stepDependsOnlyOnView : Obligations.StepDependsOnlyOnView := fun s t h =>
  sameView_iff.mpr <| calc
    viewOutcome (step s) = viewOutcome (step s.view) := (step_view s).symm
    _ = viewOutcome (step t.view) := by rw [h]
    _ = viewOutcome (step t) := step_view t

end Sys2Proof.Machine

/-! # Proofs: reachable states -/

namespace Sys2Proof.Machine

theorem Operator.powerOn_wf : Operator.powerOn.Wf := by
  constructor <;> intro _ h <;> cases h

/-- A progress bit that is 1 at power-on is one of the PRECOMPUTED realisation, whose ROMs hold their contents
(R230). -/
theorem powerOn_holds {mode : RomMode} {n : Nat} (h : decide (mode = .precomputed) = true) (rom : RomName) :
    (State.powerOn mode n).holds rom :=
  holds_of_precomputed (of_decide_eq_true h) rfl rfl rfl rom

theorem powerOn_inv (mode : RomMode) {n : Nat} (hn : 1 ≤ n) : (State.powerOn mode n).Inv where
  operators _ ho := List.eq_of_mem_replicate ho ▸ Operator.powerOn_wf
  someOperator := hn.trans_eq (List.length_replicate ..).symm
  canonical := powerOn_romsWf mode n
  expFilled h := powerOn_holds h .exp
  logSinFilled h := powerOn_holds h .logSin
  fastExpFilled h := powerOn_holds h .fastExp
  slowFirst h := ⟨h, h⟩
  precomputedReady h := by
    subst h
    rfl
  faultRecord _ h := by cases h

/-- The invariant holds of every reachable state: at power-on, and kept by every step, issue and choice of turns. -/
theorem Reachable.inv {s : State} (h : Reachable s) : s.Inv := by
  induction h with
  | powerOn mode n hn => exact powerOn_inv mode hn
  | step _ hstep ih => exact stepKeepsInvariant _ _ ih hstep
  | issue _ c ih => exact { ih with }
  | turns _ ts ih => exact { ih with }

/-- Settles O12: the ranges are clauses of the invariant, which every reachable state meets. -/
theorem reachableStatesMeetRanges : Obligations.ReachableStatesMeetRanges := by
  intro s hs
  have hinv := hs.inv
  refine ⟨fun o ho => ?_, hinv.romsFilled⟩
  obtain ⟨hphase, hincrement, hmultiplier, houtput⟩ := hinv.operators o ho
  exact ⟨hphase, hincrement, hmultiplier, fun v hv => (houtput v hv).1⟩

end Sys2Proof.Machine

/-! # Proofs: canonical ROM cells and what a ROM read answers -/

namespace Sys2Proof.Machine

section Cells

variable {w : Nat} {bg : Nat → Option (BitVec w)} {size low low' a : Nat} {v : BitVec w} {rest m m' : RomCells w}

/-- A listed word differs from the background, so a canonical list that reads the same starts no higher. -/
theorem low_le_head_of_cellsRead_eq (h : cellsWfFrom bg size low ((a, v) :: rest) = true)
    (h' : cellsWfFrom bg size low' m' = true) (heq : ∀ i, cellsRead bg ((a, v) :: rest) i = cellsRead bg m' i) :
    low' ≤ a := by
  obtain ⟨-, -, hne, -⟩ := cellsWfFrom_cons.mp h
  by_contra hlt
  have hread := heq a
  rw [cellsRead_below h' (by omega), cellsRead, if_pos rfl] at hread
  exact hne hread.symm

/-- A canonical list is determined by what it reads as: the heads agree in index and word, and so do the reads of the
tails, which are the background up to the head's index. -/
theorem eq_of_cellsRead_eq (h : cellsWfFrom bg size low m = true) (h' : cellsWfFrom bg size low' m' = true)
    (heq : ∀ i, cellsRead bg m i = cellsRead bg m' i) : m = m' := by
  induction m generalizing low low' m' with
  | nil =>
    cases m' with
    | nil => rfl
    | cons c rest' =>
      have hle : c.1 + 1 ≤ c.1 :=
        low_le_head_of_cellsRead_eq h' (low' := c.1 + 1) (m' := []) rfl fun i => (heq i).symm
      omega
  | cons c rest ih =>
    obtain ⟨a, v⟩ := c
    cases m' with
    | nil =>
      have hle : a + 1 ≤ a := low_le_head_of_cellsRead_eq h (m' := []) rfl heq
      omega
    | cons c' rest' =>
      obtain ⟨b, u⟩ := c'
      obtain ⟨-, hsize, hne, hrest⟩ := cellsWfFrom_cons.mp h
      obtain ⟨-, hsize', hne', hrest'⟩ := cellsWfFrom_cons.mp h'
      have hba : b ≤ a :=
        low_le_head_of_cellsRead_eq h (cellsWfFrom_cons.mpr ⟨le_rfl, hsize', hne', hrest'⟩) heq
      have hab : a ≤ b :=
        low_le_head_of_cellsRead_eq h' (cellsWfFrom_cons.mpr ⟨le_rfl, hsize, hne, hrest⟩) fun i => (heq i).symm
      obtain rfl : a = b := le_antisymm hab hba
      obtain rfl : v = u := by simpa [cellsRead] using heq a
      have htail : rest = rest' := ih hrest hrest' fun i => by
        by_cases hi : a = i
        · rw [cellsRead_below hrest (by omega), cellsRead_below hrest' (by omega)]
        · simpa [cellsRead, hi] using heq i
      rw [htail]

end Cells

/-- Settles O13: the whole lists are canonical from index 0. -/
theorem equalRomsAreEqualData : Obligations.EqualRomsAreEqualData :=
  fun _ _ _ _ _ h h' heq => eq_of_cellsRead_eq h h' heq

/-- Only an index inside the ROM is answered (R50, R58). -/
theorem lt_romSize_of_romRead {s : State} {rom : RomName} {i v : Nat} (h : s.romRead rom i = some v) :
    i < romSize rom := by
  by_contra hi
  simp [State.romRead, hi] at h

theorem lt_of_map_toNat_eq_some {w : Nat} {word : Option (BitVec w)} {v : Nat}
    (h : word.map BitVec.toNat = some v) : v < 2 ^ w := by
  obtain ⟨b, -, rfl⟩ := Option.map_eq_some_iff.mp h
  exact b.isLt

/-- Settles O32: an answered word is a cell of the ROM's width. -/
theorem romReadWholeWord : Obligations.RomReadWholeWord := by
  intro s i
  refine ⟨fun v h => ?_, fun v h => ?_, fun v h => ?_⟩ <;>
    · have hi := lt_romSize_of_romRead h
      rw [State.romRead, if_pos hi] at h
      exact ⟨hi, lt_of_map_toNat_eq_some h⟩

end Sys2Proof.Machine

/-! # Proofs: who writes a ROM -/

namespace Sys2Proof.Machine

/-- A generator turn that changes a ROM is an enabled one (R100). -/
theorem genEnabled_of_generatorTurn_ne {g : GenStep} {s : State} (h : generatorTurn g s ≠ s) :
    genEnabled g s = true := by
  by_contra hoff
  exact h (if_neg hoff)

theorem generated_of_genEnabled {g : GenStep} {s : State} (h : genEnabled g s = true) : s.romMode = .generated := by
  simp only [genEnabled, Bool.and_eq_true, decide_eq_true_eq] at h
  exact h.1

/-- A generator turn does not write a ROM whose progress bit is 1 (R64): its own step is then not enabled, and the other
two write another ROM. -/
theorem generatorTurn_keeps_done_rom (g : GenStep) (s : State) :
    (s.expDone = true → (generatorTurn g s).exp = s.exp) ∧
    (s.logSinDone = true → (generatorTurn g s).logSin = s.logSin) ∧
    (s.fastExpDone = true → (generatorTurn g s).fastExp = s.fastExp) := by
  unfold generatorTurn
  split
  · rename_i hg
    cases g <;> simp [genEnabled] at hg <;> simp [genWrite, hg]
  · exact ⟨fun _ => rfl, fun _ => rfl, fun _ => rfl⟩

/-- Settles O35: commands keep the ROMs, so a change is an enabled generator turn's, which leaves a done ROM. -/
theorem onlyGeneratorWritesRoms : Obligations.OnlyGeneratorWritesRoms := by
  refine ⟨fun i s t h => ?_, fun s t h hne => ?_, fun s t h => ?_⟩
  · obtain ⟨he, hl, hf, -⟩ := exec_keeps_roms h
    exact ⟨he, hl, hf⟩
  · obtain ⟨g, hturn, hfault, rfl⟩ | ⟨-, -, -, rfl⟩ | ⟨c, rest, -, -, -, hexec⟩ := step_cases h
    · have hg : genEnabled g (dropTurn s) = true :=
        genEnabled_of_generatorTurn_ne fun heq => by simp [heq] at hne
      exact ⟨hfault, generated_of_genEnabled hg, g, hturn, hg⟩
    · simp at hne
    · obtain ⟨he, hl, hf, -⟩ := exec_keeps_roms hexec
      simp [he, hl, hf] at hne
  · obtain ⟨g, -, -, rfl⟩ | ⟨-, -, -, rfl⟩ | ⟨c, rest, -, -, -, hexec⟩ := step_cases h
    · exact generatorTurn_keeps_done_rom g (dropTurn s)
    · exact ⟨fun _ => rfl, fun _ => rfl, fun _ => rfl⟩
    · obtain ⟨he, hl, hf, -⟩ := exec_keeps_roms hexec
      exact ⟨fun _ => he, fun _ => hl, fun _ => hf⟩

end Sys2Proof.Machine

/-! # Proofs: the properties of FASTEXP -/

namespace Sys2Proof.Machine

/-- EXP rises strictly (R54). -/
theorem expContents_lt_succ {i : Nat} (hi : i < 255) : expContents i < expContents (i + 1) := by
  have h : ∀ i < 255, expContents i < expContents (i + 1) := by decide +kernel
  exact h i hi

/-- FASTEXP as arithmetic, the index in its block and the block's exponent (R53, R103). -/
theorem fastExpContents_arith (db : Nat) :
    fastExpContents db = (1024 + expContents (255 - db % 256)) * 2 ^ (7 - min (db / 256) 7 + 2) := by
  rw [fastExpContents_eq, dbToLinear_eq]

/-- Below the clamp the next block's factor is half this one's (R103). -/
theorem two_pow_shift_block {q : Nat} (h : q < 7) : 2 ^ (7 - min q 7 + 2) = 2 * 2 ^ (7 - min (q + 1) 7 + 2) := by
  have hexp : 7 - min q 7 + 2 = 7 - min (q + 1) 7 + 2 + 1 := by omega
  rw [hexp, Nat.pow_succ']

/-- Up to block 7 the next block has half the values (R108). -/
theorem fastExpContents_add_block {db : Nat} (h : db ≤ 1791) :
    fastExpContents (db + 256) * 2 = fastExpContents db := by
  have hmod : (db + 256) % 256 = db % 256 := Nat.add_mod_right db 256
  have hblock : (db + 256) / 256 = db / 256 + 1 := by omega
  rw [fastExpContents_arith, fastExpContents_arith db, hmod, hblock, two_pow_shift_block (q := db / 256) (by omega)]
  ring

/-- From block 7 on the exponent field is clamped, so the blocks repeat (R108). -/
theorem fastExpContents_periodic {db : Nat} (h : 1792 ≤ db) :
    fastExpContents db = fastExpContents (1792 + db % 256) := by
  have hmod : (1792 + db % 256) % 256 = db % 256 := by omega
  have hmin : min ((1792 + db % 256) / 256) 7 = min (db / 256) 7 := by omega
  rw [fastExpContents_arith, fastExpContents_arith (1792 + db % 256), hmod, hmin]

/-- FASTEXP falls strictly below the last index of block 7 (R108): inside a block as EXP rises, and into the next block
since twice the last mantissa, 1024 + 0, exceeds the next one, 1024 + 1018. -/
theorem fastExpContents_succ_lt {db : Nat} (h : db < 2047) : fastExpContents (db + 1) < fastExpContents db := by
  rw [fastExpContents_arith, fastExpContents_arith db]
  by_cases hlast : db % 256 = 255
  · have hmod : (db + 1) % 256 = 0 := by omega
    have hblock : (db + 1) / 256 = db / 256 + 1 := by omega
    have hmantissa : 1024 + expContents (255 - 0) < (1024 + expContents (255 - 255)) * 2 := by decide +kernel
    rw [hlast, hmod, hblock, two_pow_shift_block (q := db / 256) (by omega), ← Nat.mul_assoc]
    exact Nat.mul_lt_mul_of_pos_right hmantissa (Nat.two_pow_pos _)
  · have hblock : (db + 1) / 256 = db / 256 := by omega
    have hindex : 255 - db % 256 = 255 - (db + 1) % 256 + 1 := by omega
    have hrise := expContents_lt_succ (i := 255 - (db + 1) % 256) (by omega)
    rw [hblock, hindex]
    exact Nat.mul_lt_mul_of_pos_right (by omega) (Nat.two_pow_pos _)

/-- Settles O31: each property is a fact about the mantissa and the exponent of `dbToLinear`. -/
theorem fastExpLaws : Obligations.FastExpLaws :=
  ⟨fun _ h => fastExpContents_succ_lt h,
   fun _ h _ => fastExpContents_periodic h,
   fun db _ => fastExpContents_mod_four db,
   fun db _ => fastExpContents_eq db ▸ dbToLinear_bounds db,
   fun _ h => fastExpContents_add_block h⟩

end Sys2Proof.Machine

/-! # Proofs: the image of a command -/

namespace Sys2Proof

/-! ## Words and bytes -/

/-- A word is its four bytes put together. -/
theorem append_extractLsb'_eq_self (w : Word) :
    w.extractLsb' 24 8 ++ w.extractLsb' 16 8 ++ w.extractLsb' 8 8 ++ w.extractLsb' 0 8 = w := by
  rw [BitVec.extractLsb'_append_extractLsb'_eq_extractLsb' (by rfl),
    BitVec.extractLsb'_append_extractLsb'_eq_extractLsb' (by rfl),
    BitVec.extractLsb'_append_extractLsb'_eq_extractLsb' (by rfl)]
  exact BitVec.extractLsb'_eq_self

/-- The bytes of the word that four bytes make are those four. -/
theorem wordBytes_append (b0 b1 b2 b3 : Byte) : wordBytes (b3 ++ b2 ++ b1 ++ b0) = [b0, b1, b2, b3] := by
  have h0 := BitVec.extractLsb'_append_eq_right (a := b3 ++ b2 ++ b1) (b := b0)
  have above (k : Nat) (hk : 8 ≤ k) :
      (b3 ++ b2 ++ b1 ++ b0).extractLsb' k 8 = (b3 ++ b2 ++ b1).extractLsb' (k - 8) 8 :=
    BitVec.extractLsb'_append_eq_of_le hk
  have h1 := (above 8 (by decide)).trans BitVec.extractLsb'_append_eq_right
  have h2 := (above 16 (by decide)).trans <|
    (BitVec.extractLsb'_append_eq_of_le (by decide)).trans BitVec.extractLsb'_append_eq_right
  have h3 := (above 24 (by decide)).trans <|
    (BitVec.extractLsb'_append_eq_of_le (by decide)).trans BitVec.extractLsb'_append_eq_left
  simp only [wordBytes, List.cons.injEq, and_true]
  exact ⟨h0, h1, h2, h3⟩

@[simp] theorem length_wordBytes (w : Word) : (wordBytes w).length = 4 := rfl

@[simp] theorem takeWord_wordBytes (w : Word) (rest : List Byte) : takeWord (wordBytes w ++ rest) = .ok (w, rest) :=
  congrArg (fun v => Except.ok (v, rest)) (append_extractLsb'_eq_self w)

theorem eq_of_takeWord {bytes rest : List Byte} {w : Word} (h : takeWord bytes = .ok (w, rest)) :
    bytes = wordBytes w ++ rest := by
  unfold takeWord at h
  split at h <;> cases h
  rw [wordBytes_append]
  rfl

/-- Four bytes are always a word. -/
theorem exists_wordBytes {bytes : List Byte} (h : 4 ≤ bytes.length) :
    ∃ w rest, bytes = wordBytes w ++ rest ∧ bytes.length = rest.length + 4 := by
  match bytes, h with
  | b0 :: b1 :: b2 :: b3 :: rest, _ => exact ⟨b3 ++ b2 ++ b1 ++ b0, rest, by rw [wordBytes_append]; rfl, rfl⟩

/-! ## The head word -/

/-- The head word in arithmetic: OP in the low 3 bits, ID above it (log 6). -/
theorem toNat_headWord {id : Nat} (op : Opcode) (h : id < 2 ^ 29) : (headWord id op).toNat = id * 8 + op.toNat := by
  have hop : op.toNat < 2 ^ 3 := op.isLt
  have hfield : (BitVec.ofNat 32 id <<< 3).toNat = id <<< 3 := by
    simp only [BitVec.toNat_shiftLeft, BitVec.toNat_ofNat, Nat.shiftLeft_eq]
    omega
  rw [headWord, BitVec.toNat_or, hfield, BitVec.toNat_setWidth, Nat.mod_eq_of_lt (by omega),
    ← Nat.shiftLeft_add_eq_or_of_lt hop, Nat.shiftLeft_eq]

theorem headId_eq (w : Word) : headId w = w.toNat / 8 := by
  rw [headId, BitVec.toNat_ushiftRight, Nat.shiftRight_eq_div_pow]

theorem toNat_headOp (w : Word) : (headOp w).toNat = w.toNat % 8 := BitVec.toNat_setWidth 3 w

theorem headId_lt (w : Word) : headId w < 2 ^ 29 := by
  rw [headId_eq]
  omega

theorem headId_headWord {id : Nat} (op : Opcode) (h : id < 2 ^ 29) : headId (headWord id op) = id := by
  rw [headId_eq, toNat_headWord op h]
  omega

theorem headOp_headWord {id : Nat} (op : Opcode) (h : id < 2 ^ 29) : headOp (headWord id op) = op := by
  apply BitVec.eq_of_toNat_eq
  rw [toNat_headOp, toNat_headWord op h]
  omega

theorem headWord_headId (w : Word) : headWord (headId w) (headOp w) = w := by
  apply BitVec.eq_of_toNat_eq
  rw [toNat_headWord _ (headId_lt w), headId_eq, toNat_headOp]
  omega

/-! ## Tuples -/

theorem Command.wf_iff {c : Command} : c.wf = true ↔ c.id < 2 ^ 29 := decide_eq_true_iff

@[simp] theorem Command.length_toBytes (c : Command) : c.toBytes.length = 16 := rfl

/-- Four words in a row are read as a tuple whose ID and OP are those of the first. -/
theorem ofBytes_wordBytes (head a b c : Word) (rest : List Byte) :
    Command.ofBytes (wordBytes head ++ (wordBytes a ++ (wordBytes b ++ (wordBytes c ++ rest)))) =
      .ok (⟨headId head, headOp head, a, b, c⟩, rest) := by
  simp only [Command.ofBytes, takeWord_wordBytes]

/-- Bytes that are read as a tuple are four words in a row. -/
theorem exists_wordBytes_of_ofBytes {bytes rest : List Byte} {c : Command} (h : Command.ofBytes bytes = .ok (c, rest)) :
    ∃ head, c = ⟨headId head, headOp head, c.a, c.b, c.c⟩ ∧
      bytes = wordBytes head ++ (wordBytes c.a ++ (wordBytes c.b ++ (wordBytes c.c ++ rest))) := by
  unfold Command.ofBytes at h
  split at h
  · cases h
  · rename_i head r0 h0
    split at h
    · cases h
    · rename_i a r1 h1
      split at h
      · cases h
      · rename_i b r2 h2
        split at h <;> cases h
        rename_i h3
        rw [eq_of_takeWord h0, eq_of_takeWord h1, eq_of_takeWord h2, eq_of_takeWord h3]
        exact ⟨head, rfl, rfl⟩

/-- Reading a tuple from bytes and writing its image are inverse to each other (log 6). -/
theorem ofBytes_eq_ok_iff {bytes rest : List Byte} {c : Command} :
    Command.ofBytes bytes = .ok (c, rest) ↔ c.wf = true ∧ c.toBytes ++ rest = bytes := by
  constructor
  · intro h
    obtain ⟨head, hc, rfl⟩ := exists_wordBytes_of_ofBytes h
    rw [hc, Command.wf_iff]
    refine ⟨headId_lt head, ?_⟩
    simp only [Command.toBytes, headWord_headId, List.append_assoc]
  · rintro ⟨hwf, rfl⟩
    have hid := Command.wf_iff.mp hwf
    simp only [Command.toBytes, List.append_assoc, ofBytes_wordBytes, headId_headWord _ hid, headOp_headWord _ hid]

/-- Sixteen bytes always hold a tuple. -/
theorem exists_ofBytes_of_length {bytes : List Byte} (h : 16 ≤ bytes.length) :
    ∃ c rest, Command.ofBytes bytes = .ok (c, rest) := by
  obtain ⟨head, r0, rfl, h0⟩ := exists_wordBytes (bytes := bytes) (by omega)
  obtain ⟨a, r1, rfl, h1⟩ := exists_wordBytes (bytes := r0) (by omega)
  obtain ⟨b, r2, rfl, h2⟩ := exists_wordBytes (bytes := r1) (by omega)
  obtain ⟨c, r3, rfl, -⟩ := exists_wordBytes (bytes := r2) (by omega)
  exact ⟨_, r3, ofBytes_wordBytes head a b c r3⟩

/-! ## Commands -/

/-- The tuple of a command decodes to the command (R85, R92). -/
@[simp] theorem decode_encode (i : Instr) : decode (encode i) = i := by
  cases i with
  | setFrequency id fNumber octave => exact Laws.TupleRoundTrip.setFrequency id fNumber octave
  | setMultiplier id mult => exact Laws.TupleRoundTrip.setMultiplier id mult
  | setRectify id enabled => exact Laws.TupleRoundTrip.setRectify id enabled
  | start id => exact Laws.TupleRoundTrip.start id
  | fetchSample id freqDiff vib ampDiff => exact Laws.TupleRoundTrip.fetchSample id freqDiff vib ampDiff
  | dbToLinear id db => exact Laws.TupleRoundTrip.dbToLinear id db
  | readRom id sel index => exact Laws.TupleRoundTrip.readRom id sel index
  | reserved id => exact Laws.TupleRoundTrip.reserved id

@[simp] theorem encode_wf (i : Instr) : (encode i).wf = i.wf := by cases i <;> rfl

theorem decodeBytes_eq_ok_iff {bytes rest : List Byte} {i : Instr} :
    decodeBytes bytes = .ok (i, rest) ↔ ∃ c, Command.ofBytes bytes = .ok (c, rest) ∧ decode c = i := by
  unfold decodeBytes
  split
  · simp [*]
  · simp [*, and_comm]

/-- Settles O1: the image of a well-formed tuple reads back as the tuple, and the tuple of a command decodes to it. -/
theorem decodeBytesOfEncodeBytes : Obligations.DecodeBytesOfEncodeBytes := fun i _ hwf =>
  decodeBytes_eq_ok_iff.mpr ⟨encode i, ofBytes_eq_ok_iff.mpr ⟨(encode_wf i).trans hwf, rfl⟩, decode_encode i⟩

/-- Settles O2: an image is sixteen bytes long, and reading a tuple is inverse to writing its image. -/
theorem imageOfDecodedBytes : Obligations.ImageOfDecodedBytes := by
  refine ⟨fun bytes => ⟨?_, fun h => ?_⟩, fun bytes rest c h => (ofBytes_eq_ok_iff.mp h).symm⟩
  · rintro ⟨i, rest, h⟩
    obtain ⟨c, hc, -⟩ := decodeBytes_eq_ok_iff.mp h
    rw [← (ofBytes_eq_ok_iff.mp hc).2, List.length_append, Command.length_toBytes]
    exact Nat.le_add_right 16 rest.length
  · obtain ⟨c, rest, hc⟩ := exists_ofBytes_of_length h
    exact ⟨decode c, rest, decodeBytes_eq_ok_iff.mpr ⟨c, hc, rfl⟩⟩

/-- Settles O4: each written word is evaluated. -/
theorem writtenWordsDecode : Obligations.WrittenWordsDecode := by
  refine ⟨?_, ?_, ?_, ?_, ?_, ?_, ?_, ?_⟩ <;> decide

end Sys2Proof

/-! # Proofs: what a tuple decodes to -/

namespace Sys2Proof

@[simp] theorem decode_id (c : Command) : (decode c).id = c.id := by
  unfold decode
  split_ifs <;> rfl

/-- The eight values of OP (R85). -/
theorem opcode_cases (op : Opcode) :
    op = opSetFrequency ∨ op = opSetMultiplier ∨ op = opSetRectify ∨ op = opStart ∨ op = opFetchSample ∨
      op = opDbToLinear ∨ op = opReadRom ∨ op = opReserved := by
  revert op
  decide

/-- Decoding keeps OP. -/
@[simp] theorem decode_op (c : Command) : (decode c).op = c.op := by
  obtain ⟨id, op, a, b, d⟩ := c
  obtain rfl | rfl | rfl | rfl | rfl | rfl | rfl | rfl := opcode_cases op <;> rfl

/-- Settles O3: `decode` compares OP with each selector. -/
theorem operationMap : Obligations.OperationMap := fun _ _ _ _ => ⟨rfl, rfl, rfl, rfl, rfl, rfl, rfl, rfl⟩

end Sys2Proof

namespace Sys2Proof.Machine

/-- Settles O7: the tuple of a line is the tuple of the command it names, a table command's with ID 0. -/
theorem assembledLinesDecode : Obligations.AssembledLinesDecode := fun id x y z e =>
  ⟨decode_encode (.setFrequency id (onPort x) (onPort y)), decode_encode (.setMultiplier id (onPort x)),
   decode_encode (.setRectify id e), decode_encode (.start id),
   decode_encode (.fetchSample id (onPort x) (onPort y) (onPort z)), decode_encode (.dbToLinear 0 (onPort x)),
   decode_encode (.readRom 0 0#32 (onPort x)), decode_encode (.readRom 0 1#32 (onPort x)),
   decode_encode (.readRom 0 2#32 (onPort x))⟩

end Sys2Proof.Machine

/-! # Proofs: the outcomes of a command -/

namespace Sys2Proof.Machine

/-! ## Every command answers -/

theorem withOperator_answers (s : State) (id : Nat) (op : Opcode) {k : Operator → Result}
    (h : ∀ o, ∃ t, k o = .next t) : ∃ t, withOperator s id op k = .next t := by
  unfold withOperator
  split
  · exact ⟨_, rfl⟩
  · exact h _

theorem finishRead_answers (s : State) (id : Nat) (op : Opcode) (rom : RomName) (i : Nat) :
    ∃ t, finishRead s id op rom i = .next t := by
  unfold finishRead
  split
  · split <;> exact ⟨_, rfl⟩
  · exact ⟨_, rfl⟩

theorem sampleLookup_answers (s : State) (id : Nat) (o : Operator) (r : SampleRegs) (realPhase : BitVec 20)
    (vib ampDiff : Word) : ∃ t, sampleLookup s id o r realPhase vib ampDiff = .next t := by
  unfold sampleLookup
  split
  · exact ⟨_, rfl⟩
  · split
    · split <;> exact ⟨_, rfl⟩
    · exact ⟨_, rfl⟩

/-- No command stops the machine or is refused (R90). -/
theorem exec_answers (i : Instr) (s : State) : ∃ t, exec i s = .next t := by
  cases i with
  | setFrequency id | setMultiplier id =>
    refine withOperator_answers s id _ fun o => ?_
    split <;> exact ⟨_, rfl⟩
  | setRectify id | start id => exact withOperator_answers s id _ fun o => ⟨_, rfl⟩
  | fetchSample id freqDiff vib ampDiff =>
    refine withOperator_answers s id _ fun o => ?_
    split
    · exact ⟨_, rfl⟩
    · split
      · exact sampleLookup_answers ..
      · exact ⟨_, rfl⟩
  | dbToLinear id db =>
    simp only [exec, execDbToLinear]
    split
    · exact ⟨_, rfl⟩
    · exact finishRead_answers ..
  | readRom id sel index =>
    simp only [exec, execReadRom]
    split
    · exact ⟨_, rfl⟩
    · split
      · exact ⟨_, rfl⟩
      · exact finishRead_answers ..
  | reserved id => exact ⟨_, rfl⟩

/-- Settles O44: a command always answers, and its answer is of one of the shapes of `exec_shape`. -/
theorem everyCommandHasItsNextState : Obligations.EveryCommandHasItsNextState := by
  intro i s
  obtain ⟨t, h⟩ := exec_answers i s
  refine ⟨t, h, ?_⟩
  cases exec_shape h with
  | raised info => exact .inr (.inl ⟨_, rfl, rfl, rfl⟩)
  | held => exact .inl rfl
  | read | wrote => exact .inr (.inr rfl)

/-- Settles O47: only a completion advances the position, and it drives Y exactly where `returnsResult` holds. -/
theorem resultPortDrivenByResultCommands : Obligations.ResultPortDrivenByResultCommands := by
  intro i s t h
  cases exec_shape h with
  | raised info => simp
  | held => simp +contextual
  | read hr => simp [hr]
  | wrote _ o o' _ v hv => simp +contextual [← hv, Option.isSome_iff_ne_none]

/-- A command is held or raises a fault, leaving the stream, or completes, taking the head command off it. -/
theorem exec_stream {i : Instr} {s t : State} (h : exec i s = .next t) :
    (t.commands = s.commands ∧ t.index = s.index ∧ t.observed = s.observed) ∨
    (t.commands = s.commands.tail ∧ t.index = s.index + 1 ∧ t.observed = s.observed ++ t.y.toList) := by
  cases exec_shape h with
  | raised | held => exact .inl ⟨rfl, rfl, rfl⟩
  | read | wrote => exact .inr ⟨rfl, rfl, rfl⟩

/-- Settles O46: a generator turn and a wait leave the stream, and a command does what `exec_stream` says. -/
theorem commandsExecuteInOrder : Obligations.CommandsExecuteInOrder := by
  intro s t h
  obtain ⟨g, -, -, rfl⟩ | ⟨-, -, -, rfl⟩ | ⟨c, rest, -, -, -, hexec⟩ := step_cases h
  · obtain ⟨-, -, hcommands, hindex, -, hobserved, -, -⟩ := generatorTurn_keeps g (dropTurn s)
    exact .inl ⟨hcommands, hindex, hobserved⟩
  · exact .inl ⟨rfl, rfl, rfl⟩
  · obtain hsame | ⟨hcommands, hindex, hobserved⟩ := exec_stream hexec
    · exact .inl hsame
    · refine .inr ⟨hcommands, hindex, ?_⟩
      cases hy : t.y with
      | none => exact .inl ⟨by simpa [hy] using hobserved, rfl⟩
      | some v => exact .inr ⟨v, rfl, by simpa [hy] using hobserved⟩

end Sys2Proof.Machine

/-! # Proofs: the static checks and the faults of a tuple -/

namespace Sys2Proof.Machine

/-! ## The checks of R82 and R88 as the machine reads them -/

theorem admitted_setFrequency (n id : Nat) (fNumber octave : Word) :
    (Instr.setFrequency id fNumber octave).admitted n = (decide (id < n) && (octaveOf octave).isSome) := by
  simp only [Instr.admitted, octaveOf, sext32]
  split <;> simp_all

theorem admitted_setMultiplier (n id : Nat) (mult : Word) :
    (Instr.setMultiplier id mult).admitted n = (decide (id < n) && (multOf mult).isSome) := by
  simp only [Instr.admitted, multOf, sext32]
  split <;> simp_all

theorem admitted_dbToLinear (n id : Nat) (db : Word) : (Instr.dbToLinear id db).admitted n = (dbOf db).isSome := by
  simp only [Instr.admitted, dbOf, sext32]
  split <;> simp_all

theorem indexOf_isSome_iff {rom : RomName} {index : Word} :
    (indexOf rom index).isSome = true ↔ 0 ≤ index.toInt ∧ index.toInt < romSize rom := by
  simp [indexOf, sext32, Option.isSome_iff_exists]

theorem admitted_readRom (n id : Nat) (sel index : Word) :
    (Instr.readRom id sel index).admitted n = ((selOf sel).bind (indexOf · index)).isSome := by
  rw [Bool.eq_iff_iff]
  simp only [Instr.admitted, selOf, sext32]
  split_ifs with h0 h1 h2
  · simp [indexOf_isSome_iff, romSize, h0]
    omega
  · simp [indexOf_isSome_iff, romSize, h1]
    omega
  · simp [indexOf_isSome_iff, romSize, h2]
    omega
  · simp [h0, h1, h2]

/-! ## The selected operator -/

/-- Settles O40: selecting the operator comes before every other check. -/
theorem missingInstanceFaults : Obligations.MissingInstanceFaults := by
  intro i s hs hid
  cases i with
  | setFrequency | setMultiplier | setRectify | start | fetchSample => exact withOperator_none _ _ hid
  | dbToLinear | readRom | reserved => cases hs

/-- A command on an operator raises OperandFault for an ID out of range, or does `k` for an ID in range. -/
theorem withOperator_cases_id {s : State} {id : Nat} {op : Opcode} {k : Operator → Result} {t : State}
    (h : withOperator s id op k = .next t) :
    (s.nOperators ≤ id ∧ t = s.takeFault id op (.operand .id id)) ∨ (id < s.nOperators ∧ ∃ o, k o = .next t) := by
  obtain hid | hid := Nat.lt_or_ge id s.nOperators
  · rw [withOperator_some _ _ (List.getElem?_eq_getElem hid)] at h
    exact .inr ⟨hid, _, h⟩
  · rw [withOperator_none _ _ hid] at h
    cases h
    exact .inl ⟨hid, rfl⟩

/-! ## Which faults a command raises -/

/-- The fault record of `t` is that of `s`, or of an UnwrittenFault or a DomainFault: the faults that come after the static
checks (R90, R204). -/
def LateFaultOnly (s t : State) : Prop :=
  t.fault = s.fault ∨ ∃ r, t.fault = some r ∧ (r.kind = .unwritten ∨ r.kind = .domain)

theorem lateFaultOnly_unwritten (s : State) (id : Nat) (op : Opcode) (field : UnwrittenField) :
    LateFaultOnly s (s.takeFault id op (.unwritten field)) := .inr ⟨_, rfl, .inl rfl⟩

theorem finishRead_lateFaultOnly {s t : State} {id : Nat} {op : Opcode} {rom : RomName} {i : Nat}
    (h : finishRead s id op rom i = .next t) : LateFaultOnly s t := by
  unfold finishRead raise hold at h
  split at h
  · split at h <;> cases h
    · exact lateFaultOnly_unwritten ..
    · exact .inl rfl
  · cases h
    exact .inl rfl

theorem sampleLookup_lateFaultOnly {s t : State} {id : Nat} {o : Operator} {r : SampleRegs} {realPhase : BitVec 20}
    {vib ampDiff : Word} (h : sampleLookup s id o r realPhase vib ampDiff = .next t) : LateFaultOnly s t := by
  unfold sampleLookup raise at h
  split at h
  · cases h
    exact lateFaultOnly_unwritten ..
  · split at h
    · split at h <;> cases h
      · exact lateFaultOnly_unwritten ..
      · exact .inl rfl
    · cases h
      exact .inr ⟨_, rfl, .inr rfl⟩

/-- A command other than the reserved selector raises OperandFault exactly where it fails the static checks (R90). -/
theorem exec_admitted_cases {i : Instr} {s t : State} (hop : i.op ≠ opReserved) (h : exec i s = .next t) :
    (i.admitted s.nOperators = false ∧ ∃ which value, t = s.takeFault i.id i.op (.operand which value)) ∨
    (i.admitted s.nOperators = true ∧ LateFaultOnly s t) := by
  cases i with
  | setFrequency | setMultiplier =>
    simp only [admitted_setFrequency, admitted_setMultiplier]
    obtain ⟨hid, rfl⟩ | ⟨hid, o, hk⟩ := withOperator_cases_id h
    · exact .inl ⟨by simp [hid], _, _, rfl⟩
    · split at hk <;> cases hk
      · exact .inl ⟨by simp [*], _, _, rfl⟩
      · exact .inr ⟨by simp [*], .inl rfl⟩
  | setRectify | start =>
    obtain ⟨hid, rfl⟩ | ⟨hid, o, hk⟩ := withOperator_cases_id h
    · exact .inl ⟨decide_eq_false hid.not_gt, _, _, rfl⟩
    · cases hk
      exact .inr ⟨decide_eq_true hid, .inl rfl⟩
  | fetchSample id freqDiff vib ampDiff =>
    obtain ⟨hid, rfl⟩ | ⟨hid, o, hk⟩ := withOperator_cases_id h
    · exact .inl ⟨decide_eq_false hid.not_gt, _, _, rfl⟩
    · refine .inr ⟨decide_eq_true hid, ?_⟩
      split at hk
      · cases hk
        exact lateFaultOnly_unwritten ..
      · split at hk
        · exact sampleLookup_lateFaultOnly hk
        · cases hk
          exact .inl rfl
  | dbToLinear id db =>
    rw [admitted_dbToLinear]
    simp only [exec, execDbToLinear] at h
    split at h
    · cases h
      exact .inl ⟨by simp [*], _, _, rfl⟩
    · exact .inr ⟨by simp [*], finishRead_lateFaultOnly h⟩
  | readRom id sel index =>
    rw [admitted_readRom]
    simp only [exec, execReadRom] at h
    split at h
    · cases h
      exact .inl ⟨by simp [*], _, _, rfl⟩
    · split at h
      · cases h
        exact .inl ⟨by simp [*], _, _, rfl⟩
      · exact .inr ⟨by simp [*], finishRead_lateFaultOnly h⟩
  | reserved id => exact absurd rfl hop

/-- OP = 111 is the reserved selector whatever the other inputs hold (R86). -/
theorem decode_eq_reserved {c : Command} (h : c.op = opReserved) : decode c = .reserved c.id := by
  obtain ⟨id, op, a, b, d⟩ := c
  subst h
  rfl

/-- Settles O39: the command decoded from OP = 111 raises its fault, and decoding keeps OP. -/
theorem reservedSelectorFaults : Obligations.ReservedSelectorFaults := by
  refine ⟨fun _ _ _ _ _ => rfl, fun _ _ => rfl, fun c hop id h => hop ?_⟩
  rw [← decode_op c, h]
  rfl

/-- Settles O5: decoding keeps OP, and a command with another OP fails its static checks or passes them. -/
theorem tupleIsFaultOrCommand : Obligations.TupleIsFaultOrCommand := by
  intro c s
  obtain ⟨t, h⟩ := exec_answers (decode c) s
  have cases_of_ne (hop : c.op ≠ 0b111#3) := exec_admitted_cases (i := decode c) (by rwa [decode_op]) h
  refine ⟨fun hop => ?_, fun hop hadm => ?_, fun hop hadm t' h' => ?_⟩
  · rw [decode_eq_reserved hop, hop]
    rfl
  · obtain ⟨-, which, value, rfl⟩ | ⟨hpass, -⟩ := cases_of_ne hop
    · exact ⟨which, value, by rw [h, decode_id, decode_op]⟩
    · simp [hadm] at hpass
  · obtain ⟨hfail, -⟩ | ⟨-, hlate⟩ := cases_of_ne hop
    · simp [hadm] at hfail
    · obtain rfl : t = t' := by simpa using h.symm.trans h'
      exact hlate

/-! ## Unused inputs -/

/-- A table read that records no fault reads the same whatever the command's ID (R87). -/
theorem finishRead_id_irrelevant {s t : State} {id : Nat} {op : Opcode} {rom : RomName} {i : Nat} (id' : Nat)
    (h : finishRead s id op rom i = .next t) (ht : t.fault = none) : finishRead s id' op rom i = .next t := by
  unfold finishRead raise at h ⊢
  split at h
  · split at h
    · cases h
      cases ht
    · rw [if_pos ‹_›]
      simp [*]
  · rw [if_neg ‹_›]
    exact h

theorem exec_dbToLinear_id_irrelevant {s t : State} {id : Nat} {db : Word} (id' : Nat)
    (h : exec (.dbToLinear id db) s = .next t) (ht : t.fault = none) : exec (.dbToLinear id' db) s = .next t := by
  simp only [exec, execDbToLinear] at h ⊢
  split at h
  · cases h
    cases ht
  · exact finishRead_id_irrelevant id' h ht

theorem exec_readRom_id_irrelevant {s t : State} {id : Nat} {sel index : Word} (id' : Nat)
    (h : exec (.readRom id sel index) s = .next t) (ht : t.fault = none) : exec (.readRom id' sel index) s = .next t := by
  simp only [exec, execReadRom] at h ⊢
  split at h
  · cases h
    cases ht
  · split at h
    · cases h
      cases ht
    · exact finishRead_id_irrelevant id' h ht

/-- Settles O6: `decode` does not look at an unused port, and a table command's ID is seen in a fault record only. -/
theorem unusedInputsIgnored : Obligations.UnusedInputsIgnored :=
  ⟨fun _ _ _ _ _ => rfl, fun _ _ _ _ _ _ => rfl,
   fun id _ _ _ _ _ _ hbit => congrArg (Instr.setRectify id) hbit,
   fun _ _ _ _ _ _ _ => rfl,
   fun _ id' _ _ _ _ _ _ _ _ ht h => exec_dbToLinear_id_irrelevant id' h ht,
   fun _ id' _ _ _ _ _ _ _ ht h => exec_readRom_id_irrelevant id' h ht⟩

end Sys2Proof.Machine

/-! # Proofs: a step runs the decoded command -/

namespace Sys2Proof.Machine

/-- On a core with no fault, the command unit's turn runs the decoded head command (R80). -/
theorem step_of_head {s : State} {c : Command} {rest : List Command} (hf : s.fault = none)
    (hn : nextTurn s = .commandUnit) (hc : s.commands = c :: rest) : step s = exec (decode c) (dropTurn s) := by
  simp only [step_of_no_fault hf, hn, agentTurn, commandTurn, dropTurn_commands, hc]

/-- A word that decodes drives the tuple it is the image of (log 5, log 6). -/
theorem exists_driveNext_of_decodeTableWord {nbits w : Nat} {i : Instr} (s : State)
    (h : decodeTableWord nbits w = some i) : ∃ c, decode c = i ∧ s.withFetchWord nbits w = driveNext s c := by
  obtain ⟨c, hc, hi⟩ := Option.map_eq_some_iff.mp h
  exact ⟨c, hi, by simp only [State.withFetchWord, placeTableWord, hc]⟩

/-- Settles O45: each clause is `step_of_head`, on a tuple, on a command's own tuple and on the driven tuple. -/
theorem stepRunsDecodedCommand : Obligations.StepRunsDecodedCommand := by
  refine ⟨fun s c rest hf hn hc => step_of_head hf hn hc, fun s i rest hf hn hc => ?_, fun s nbits w i hf hw => ?_⟩
  · have h := step_of_head hf hn hc
    rwa [decode_encode] at h
  · obtain ⟨c, rfl, hdrive⟩ := exists_driveNext_of_decodeTableWord s hw
    refine ⟨c, rfl, ?_⟩
    rw [hdrive]
    exact step_of_head (s := driveNext s c) hf rfl rfl

end Sys2Proof.Machine

/-! # Proofs: the turns of the generator -/

namespace Sys2Proof.Machine

/-! ## When each step is enabled (R100) -/

theorem genEnabled_genExp_iff {s : State} :
    genEnabled .genExp s = true ↔ s.romMode = .generated ∧ s.expDone = false := by
  simp [genEnabled]

theorem genEnabled_genLogSin_iff {s : State} :
    genEnabled .genLogSin s = true ↔ s.romMode = .generated ∧ s.logSinDone = false := by
  simp [genEnabled]

theorem genEnabled_genFastExp_iff {s : State} : genEnabled .genFastExp s = true ↔
    s.romMode = .generated ∧ (s.expDone = true ∧ s.logSinDone = true) ∧ s.fastExpDone = false := by
  simp [genEnabled]

/-! ## What a turn leaves -/

/-- A generator turn that is not enabled changes nothing (R100). -/
theorem generatorTurn_of_not_enabled {g : GenStep} {s : State} (h : genEnabled g s = false) : generatorTurn g s = s := by
  simp [generatorTurn, h]

theorem generatorTurn_of_enabled {g : GenStep} {s : State} (h : genEnabled g s = true) :
    generatorTurn g s = genWrite g s := if_pos h

/-- A generator turn leaves the ROMs and the progress bits of the other two steps. -/
theorem generatorTurn_keeps_other_roms (g : GenStep) (s : State) :
    (g ≠ .genExp → (generatorTurn g s).exp = s.exp ∧ (generatorTurn g s).expDone = s.expDone) ∧
    (g ≠ .genLogSin → (generatorTurn g s).logSin = s.logSin ∧ (generatorTurn g s).logSinDone = s.logSinDone) ∧
    (g ≠ .genFastExp → (generatorTurn g s).fastExp = s.fastExp ∧ (generatorTurn g s).fastExpDone = s.fastExpDone) := by
  unfold generatorTurn
  split
  · cases g <;> simp [genWrite]
  · simp

/-! ## A step's progress bit is 1 after its turn, in the GENERATED realisation -/

theorem generatorTurn_genExp_done {s : State} (hm : s.romMode = .generated) :
    (generatorTurn .genExp s).expDone = true := by
  cases he : s.expDone with
  | true => exact (generatorTurn_keeps_done .genExp s).1 he
  | false => rw [generatorTurn_of_enabled (genEnabled_genExp_iff.mpr ⟨hm, he⟩)]; rfl

theorem generatorTurn_genLogSin_done {s : State} (hm : s.romMode = .generated) :
    (generatorTurn .genLogSin s).logSinDone = true := by
  cases hl : s.logSinDone with
  | true => exact (generatorTurn_keeps_done .genLogSin s).2.1 hl
  | false => rw [generatorTurn_of_enabled (genEnabled_genLogSin_iff.mpr ⟨hm, hl⟩)]; rfl

theorem generatorTurn_genFastExp_done {s : State} (hm : s.romMode = .generated) (he : s.expDone = true)
    (hl : s.logSinDone = true) : (generatorTurn .genFastExp s).fastExpDone = true := by
  cases hf : s.fastExpDone with
  | true => exact (generatorTurn_keeps_done .genFastExp s).2.2 hf
  | false => rw [generatorTurn_of_enabled (genEnabled_genFastExp_iff.mpr ⟨hm, ⟨he, hl⟩, hf⟩)]; rfl

/-- Settles O34: a turn that is not enabled changes nothing, and an enabled one writes its own ROM and bit. -/
theorem generatorTurnFrame : Obligations.GeneratorTurnFrame := by
  intro g s
  obtain ⟨hops, hfault, hcommands, hindex, hy, hobserved, hmode, hschedule⟩ := generatorTurn_keeps g s
  obtain ⟨hexp, hlogSin, hfastExp⟩ := generatorTurn_keeps_other_roms g s
  refine ⟨hops, hfault, hcommands, hindex, hy, hobserved, hmode, hschedule, hexp, hlogSin, hfastExp,
    fun hm => generatorTurn_of_not_enabled (by simp [genEnabled, hm]), generatorTurn_of_not_enabled,
    fun he => generatorTurn_of_not_enabled (by simp [genEnabled, he]),
    fun hl => generatorTurn_of_not_enabled (by simp [genEnabled, hl]),
    fun hoff => generatorTurn_of_not_enabled ?_, fun hm hslow => ⟨?_, ?_, ?_⟩⟩
  · rcases hoff with he | hl | hf
    · simp [genEnabled, he]
    · simp [genEnabled, hl]
    · simp [genEnabled, hf]
  · rintro rfl
    exact generatorTurn_genExp_done hm
  · rintro rfl
    exact generatorTurn_genLogSin_done hm
  · rintro rfl
    exact generatorTurn_genFastExp_done hm (hslow rfl).1 (hslow rfl).2

/-- GEN_EXP and GEN_LOGSIN write different fields and neither's enabling reads the other's bit, so their turns commute
(R101, R102). -/
theorem generatorTurn_slow_comm (s : State) :
    generatorTurn .genLogSin (generatorTurn .genExp s) = generatorTurn .genExp (generatorTurn .genLogSin s) := by
  have hlogSin : genEnabled .genLogSin (genExp s) = genEnabled .genLogSin s := rfl
  have hexp : genEnabled .genExp (genLogSin s) = genEnabled .genExp s := rfl
  cases he : genEnabled .genExp s <;> cases hl : genEnabled .genLogSin s <;>
    simp only [generatorTurn, genWrite, he, hl, hlogSin, hexp, if_true, Bool.false_eq_true, if_false]
  rfl

theorem generatorTurn_romMode (g : GenStep) (s : State) : (generatorTurn g s).romMode = s.romMode := by
  obtain ⟨-, -, -, -, -, -, hmode, -⟩ := generatorTurn_keeps g s
  exact hmode

/-- After the three turns every progress bit is 1: each turn sets its own and clears none. -/
theorem generatorTurns_tablesReady {s : State} (hm : s.romMode = .generated) :
    (generatorTurn .genFastExp (generatorTurn .genLogSin (generatorTurn .genExp s))).tablesReady = true := by
  have hmExp := (generatorTurn_romMode .genExp s).trans hm
  have hmLogSin := (generatorTurn_romMode .genLogSin _).trans hmExp
  have he := (generatorTurn_keeps_done .genLogSin _).1 (generatorTurn_genExp_done hm)
  have hl := generatorTurn_genLogSin_done hmExp
  have hf := generatorTurn_genFastExp_done hmLogSin he hl
  obtain ⟨hkeepExp, hkeepLogSin, -⟩ :=
    generatorTurn_keeps_done .genFastExp (generatorTurn .genLogSin (generatorTurn .genExp s))
  simp [State.tablesReady, hkeepExp he, hkeepLogSin hl, hf]

/-- Settles O33: the slow turns commute, the three turns make the tables ready, and the invariant, which every turn keeps,
says what ready tables hold. -/
theorem generatorFillsTables : Obligations.GeneratorFillsTables := by
  intro s hinv hm
  have hready := generatorTurns_tablesReady hm
  have hfinal := generatorTurn_inv .genFastExp (generatorTurn_inv .genLogSin (generatorTurn_inv .genExp hinv))
  exact ⟨generatorTurn_slow_comm s, hready, hfinal.romsFilled hready⟩

end Sys2Proof.Machine

/-! # Proofs: the commands that read a table -/

namespace Sys2Proof.Machine

/-! ## The end of a table read -/

/-- Over filled ROMs a table read inside its ROM drives the word (R58). -/
theorem finishRead_of_ready {s : State} {rom : RomName} {i : Nat} (id : Nat) (op : Opcode) (hf : s.romsFilled)
    (ht : s.tablesReady = true) (hi : i < romSize rom) :
    finishRead s id op rom i = .next (s.complete (some (BitVec.ofNat 32 (romContents rom i)))) := by
  simp only [finishRead, ht, if_true, hf ht rom i hi]

/-- Before the tables are ready a table read is held (R105). -/
theorem finishRead_of_not_ready {s : State} (id : Nat) (op : Opcode) (rom : RomName) (i : Nat)
    (ht : s.tablesReady = false) : finishRead s id op rom i = .next s := by
  simp [finishRead, ht, hold]

/-! ## The commands by their operand checks -/

theorem exec_dbToLinear_of_db {id : Nat} {db : Word} {s : State} {d : Nat} (h : dbOf db = some d) :
    exec (.dbToLinear id db) s = finishRead s id opDbToLinear .fastExp d := by
  simp only [exec, execDbToLinear, h]

theorem exec_dbToLinear_bad_db {id : Nat} {db : Word} {s : State} (h : dbOf db = none) :
    exec (.dbToLinear id db) s = .next (s.takeFault id opDbToLinear (.operand .db db.toInt)) := by
  simp only [exec, execDbToLinear, h, raise]

theorem exec_readRom_of_index {id : Nat} {sel index : Word} {s : State} {rom : RomName} {i : Nat}
    (hs : selOf sel = some rom) (hi : indexOf rom index = some i) :
    exec (.readRom id sel index) s = finishRead s id opReadRom rom i := by
  simp only [exec, execReadRom, hs, hi]

theorem exec_readRom_bad_index {id : Nat} {sel index : Word} {s : State} {rom : RomName}
    (hs : selOf sel = some rom) (hi : indexOf rom index = none) :
    exec (.readRom id sel index) s = .next (s.takeFault id opReadRom (.operand .index index.toInt)) := by
  simp only [exec, execReadRom, hs, hi, raise]

theorem exec_readRom_bad_sel {id : Nat} {sel index : Word} {s : State} (hs : selOf sel = none) :
    exec (.readRom id sel index) s = .next (s.takeFault id opReadRom (.operand .sel sel.toInt)) := by
  simp only [exec, execReadRom, hs, raise]

theorem toNat_toInt_of_nonneg {w : Word} (h : 0 ≤ w.toInt) : w.toInt.toNat = w.toNat :=
  BitVec.toNat_toInt_of_sle (BitVec.sle_iff_toInt_le.mpr (by simpa using h))

/-- Settles O28: a db in range goes on to the table read of FASTEXP, whose words are `dbToLinear`. -/
theorem dbToLinearResult : Obligations.DbToLinearResult := by
  intro id db b c s hf
  refine ⟨fun h0 h1 ht => ?_, fun h0 h1 ht => ?_, fun h => ?_⟩
  · calc exec (.dbToLinear id db) s
        = finishRead s id opDbToLinear .fastExp db.toInt.toNat := exec_dbToLinear_of_db (dbOf_pass h0 h1)
      _ = .next (s.complete (some (BitVec.ofNat 32 (fastExpContents db.toInt.toNat)))) :=
          finishRead_of_ready id _ hf ht (by simp only [romSize]; omega)
      _ = _ := by rw [fastExpContents_arith, toNat_toInt_of_nonneg h0]
  · exact (exec_dbToLinear_of_db (dbOf_pass h0 h1)).trans (finishRead_of_not_ready id _ _ _ ht)
  · exact exec_dbToLinear_bad_db (dbOf_fail h)

/-- The selector of each table (R110). -/
def selCode : RomName → Int
  | .exp => 0
  | .logSin => 1
  | .fastExp => 2

theorem selOf_of_selCode {sel : Word} {rom : RomName} (h : sel.toInt = selCode rom) : selOf sel = some rom := by
  cases rom with
  | exp => exact selOf_exp h
  | logSin => exact selOf_logSin h
  | fastExp => exact selOf_fastExp h

/-- Settles O29: sel, then index, then the table read. -/
theorem readRomResult : Obligations.ReadRomResult := by
  intro id sel index c rom s hf
  refine ⟨fun hs h0 h1 ht => ?_, fun hs h0 h1 ht => ?_, fun hs h => ?_, fun h => ?_⟩
  · have hread := exec_readRom_of_index (id := id) (s := s) (selOf_of_selCode hs) (indexOf_pass h0 h1)
    rw [finishRead_of_ready id _ hf ht (by omega), toNat_toInt_of_nonneg h0] at hread
    exact hread
  · exact (exec_readRom_of_index (selOf_of_selCode hs) (indexOf_pass h0 h1)).trans
      (finishRead_of_not_ready id _ _ _ ht)
  · exact exec_readRom_bad_index (selOf_of_selCode hs) (indexOf_fail h)
  · exact exec_readRom_bad_sel (selOf_fail h)

/-! ## What a command leaves -/

/-- A command that selects no operator leaves the operators. -/
theorem exec_ops_of_not_selects {i : Instr} {s t : State} (hs : selectsOperator i = false) (h : exec i s = .next t) :
    t.ops = s.ops := by
  cases exec_shape h with
  | wrote ho => simp [hs] at ho
  | raised | held | read => rfl

/-- A command that completes leaves the fault record (R203). -/
theorem exec_fault_of_completes {i : Instr} {s t : State} (h : exec i s = .next t) (hindex : t.index ≠ s.index) :
    t.fault = s.fault := by
  cases exec_shape h with
  | raised => exact absurd rfl hindex
  | held | read | wrote => rfl

/-- Settles O30: no command touches the ROMs, and one that selects no operator writes none. -/
theorem tableCommandFrame : Obligations.TableCommandFrame := by
  intro i s t hs h
  obtain ⟨he, hl, hf, hexp, hlogSin, hfastExp, hmode, hschedule⟩ := exec_keeps_roms h
  exact ⟨exec_ops_of_not_selects hs h, exec_romRead h, he, hl, hf, hexp, hlogSin, hfastExp, hmode, hschedule,
    exec_fault_of_completes h⟩

end Sys2Proof.Machine

/-! # Proofs: the initialisation hold -/

namespace Sys2Proof.Machine

/-! ## Which commands are held -/

theorem exists_sampleRegs_ok {o : Operator} (hphase : o.phase ≠ none) (hprevious : o.previousOutput ≠ none)
    (hincrement : o.phaseIncrement ≠ none) (hmultiplier : o.multiplier ≠ none) (hrectify : o.rectifyEnabled ≠ none) :
    ∃ r, sampleRegs o = .ok r := by
  obtain ⟨phase, hphase⟩ := Option.ne_none_iff_exists'.mp hphase
  obtain ⟨previous, hprevious⟩ := Option.ne_none_iff_exists'.mp hprevious
  obtain ⟨increment, hincrement⟩ := Option.ne_none_iff_exists'.mp hincrement
  obtain ⟨multiplier, hmultiplier⟩ := Option.ne_none_iff_exists'.mp hmultiplier
  obtain ⟨rectify, hrectify⟩ := Option.ne_none_iff_exists'.mp hrectify
  exact ⟨⟨phase, previous, increment, multiplier, rectify⟩,
    sampleRegs_ok_iff.mpr ⟨hphase, hprevious, hincrement, hmultiplier, hrectify⟩⟩

/-- Before the tables are ready a FETCH_SAMPLE on a written operator is held (R105). -/
theorem exec_fetchSample_of_not_ready {id : Nat} {freqDiff vib ampDiff : Word} {s : State} {o : Operator}
    {r : SampleRegs} (ho : s.ops[id]? = some o) (hr : sampleRegs o = .ok r) (ht : s.tablesReady = false) :
    exec (.fetchSample id freqDiff vib ampDiff) s = .next s := by
  simp [exec, execFetchSample, withOperator_some _ _ ho, hr, ht, hold]

/-- A configuration command that passes its checks completes, whether or not the tables are ready (R105). -/
theorem exec_configuration_completes {i : Instr} {s : State} (hr : returnsResult i = false)
    (ha : i.admitted s.nOperators = true) : ∃ o', exec i s = .next ((s.setOp i.id o').complete none) := by
  cases i with
  | setFrequency id fNumber octave =>
    simp only [admitted_setFrequency, Bool.and_eq_true, decide_eq_true_eq, Option.isSome_iff_exists] at ha
    obtain ⟨hid, k, hk⟩ := ha
    exact ⟨_, by simp only [exec, execSetFrequency, withOperator_some _ _ (List.getElem?_eq_getElem hid), hk]; rfl⟩
  | setMultiplier id mult =>
    simp only [admitted_setMultiplier, Bool.and_eq_true, decide_eq_true_eq, Option.isSome_iff_exists] at ha
    obtain ⟨hid, m, hm⟩ := ha
    exact ⟨_, by simp only [exec, execSetMultiplier, withOperator_some _ _ (List.getElem?_eq_getElem hid), hm]; rfl⟩
  | setRectify | start =>
    have hid := of_decide_eq_true ha
    exact ⟨_, withOperator_some _ _ (List.getElem?_eq_getElem hid)⟩
  | fetchSample | dbToLinear | readRom => cases hr
  | reserved => cases ha

/-- Settles O37: each ROM reader that passes its checks comes to the hold, and a configuration command completes. -/
theorem romReadersAreHeld : Obligations.RomReadersAreHeld := by
  intro i s ht ha
  refine ⟨fun hr hwritten => ?_, fun hr => ?_⟩
  · cases i with
    | fetchSample id freqDiff vib ampDiff =>
      have ho := List.getElem?_eq_getElem (of_decide_eq_true ha : id < s.ops.length)
      obtain ⟨hphase, hprevious, hincrement, hmultiplier, hrectify⟩ := hwritten _ rfl ho
      obtain ⟨r, hregs⟩ := exists_sampleRegs_ok hphase hprevious hincrement hmultiplier hrectify
      exact exec_fetchSample_of_not_ready ho hregs ht
    | dbToLinear id db =>
      rw [admitted_dbToLinear] at ha
      obtain ⟨d, hd⟩ := Option.isSome_iff_exists.mp ha
      exact (exec_dbToLinear_of_db hd).trans (finishRead_of_not_ready _ _ _ _ ht)
    | readRom id sel index =>
      rw [admitted_readRom] at ha
      obtain ⟨i, hi⟩ := Option.isSome_iff_exists.mp ha
      obtain ⟨rom, hsel, hindex⟩ := Option.bind_eq_some_iff.mp hi
      exact (exec_readRom_of_index hsel hindex).trans (finishRead_of_not_ready _ _ _ _ ht)
    | setFrequency | setMultiplier | setRectify | start | reserved => cases hr
  · obtain ⟨o', h⟩ := exec_configuration_completes hr ha
    exact ⟨_, h, rfl, rfl⟩

/-! ## Runs -/

theorem run_succ_of_step {s t : State} (k : Nat) (h : step s = .next t) :
    Host.Core.run core (k + 1) s = Host.Core.run core k t := by
  have hcore : core.step s = .next t := h
  simp only [Host.Core.run, hcore]

/-- A run that answers a next state after one step more took that step. -/
theorem exists_step_of_run_succ {s u : State} {k : Nat} (h : Host.Core.run core (k + 1) s = .next u) :
    ∃ t, step s = .next t ∧ Host.Core.run core k t = .next u := by
  cases hs : step s with
  | next t => exact ⟨t, rfl, run_succ_of_step k hs ▸ h⟩
  | fault r =>
    have hcore : core.step s = .fault r := hs
    simp [Host.Core.run, hcore] at h
  | refused r =>
    have hcore : core.step s = .refused r := hs
    simp [Host.Core.run, hcore] at h

theorem run_add {j : Nat} (k : Nat) {s t : State} (h : Host.Core.run core j s = .next t) :
    Host.Core.run core (j + k) s = Host.Core.run core k t := by
  induction j generalizing s with
  | zero =>
    cases h
    rw [Nat.zero_add]
  | succ j ih =>
    obtain ⟨s', hstep, hrest⟩ := exists_step_of_run_succ h
    rw [Nat.succ_add, run_succ_of_step _ hstep, ih hrest]

/-! ## The hold lifts -/

/-- How many of the three generator steps are still to be run: at most three. -/
def pendingGenSteps (s : State) : Nat := (!s.expDone).toNat + (!s.logSinDone).toNat + (!s.fastExpDone).toNat

theorem pendingGenSteps_le (s : State) : pendingGenSteps s ≤ 3 := by
  have he := Bool.toNat_le (!s.expDone)
  have hl := Bool.toNat_le (!s.logSinDone)
  have hf := Bool.toNat_le (!s.fastExpDone)
  unfold pendingGenSteps
  omega

theorem pendingGenSteps_eq_zero_iff {s : State} : pendingGenSteps s = 0 ↔ s.tablesReady = true := by
  simp [pendingGenSteps, State.tablesReady]

/-- An enabled generator step is one of the pending ones, and is done after it. -/
theorem pendingGenSteps_genWrite {g : GenStep} {s : State} (h : genEnabled g s = true) :
    pendingGenSteps (genWrite g s) + 1 = pendingGenSteps s := by
  cases g with
  | genExp =>
    obtain ⟨-, he⟩ := genEnabled_genExp_iff.mp h
    simp [genWrite, pendingGenSteps, he]
    omega
  | genLogSin =>
    obtain ⟨-, hl⟩ := genEnabled_genLogSin_iff.mp h
    simp [genWrite, pendingGenSteps, hl]
    omega
  | genFastExp =>
    obtain ⟨-, -, hf⟩ := genEnabled_genFastExp_iff.mp h
    simp [genWrite, pendingGenSteps, hf]

/-- In the GENERATED realisation the default turn is an enabled generator step while one is pending (log 4). -/
theorem exists_enabled_defaultTurn {s : State} (hm : s.romMode = .generated) (hp : pendingGenSteps s ≠ 0) :
    ∃ g, defaultTurn s = .generator g ∧ genEnabled g s = true := by
  unfold defaultTurn
  split_ifs with he hl hf
  · exact ⟨_, rfl, he⟩
  · exact ⟨_, rfl, hl⟩
  · exact ⟨_, rfl, hf⟩
  · simp only [genEnabled_genExp_iff, genEnabled_genLogSin_iff, genEnabled_genFastExp_iff, hm, true_and,
      Bool.not_eq_false] at he hl hf
    have hready : s.tablesReady = true := by simpa [State.tablesReady, he, hl] using hf
    exact absurd (pendingGenSteps_eq_zero_iff.mpr hready) hp

/-- With no turn scheduled and a generator step pending, the step taken is an enabled generator step. -/
theorem step_of_pending {s : State} (hinv : s.Inv) (hf : s.fault = none) (hsch : s.schedule = [])
    (hp : pendingGenSteps s ≠ 0) : ∃ g, genEnabled g s = true ∧ step s = .next (genWrite g s) := by
  have hm : s.romMode = .generated := by
    cases hmode : s.romMode with
    | generated => rfl
    | precomputed => exact absurd (pendingGenSteps_eq_zero_iff.mpr (hinv.precomputedReady hmode)) hp
  obtain ⟨g, hturn, hen⟩ := exists_enabled_defaultTurn hm hp
  have hnext : nextTurn s = .generator g := by simp only [nextTurn, hsch, hturn]
  have hdrop : dropTurn s = s := by simp only [dropTurn, hsch, List.tail_nil]; rw [← hsch]
  refine ⟨g, hen, ?_⟩
  rw [step_of_no_fault hf, hnext, hdrop]
  exact congrArg _ (generatorTurn_of_enabled hen)

/-! ## The PRECOMPUTED core at the same point of the run -/

/-- The state with the ROMs, the progress bits and the turns of a PRECOMPUTED core (R5, R106, R230). -/
def State.asPrecomputed (s : State) : State :=
  { s with
    romMode := .precomputed, exp := [], logSin := [], fastExp := []
    expDone := true, logSinDone := true, fastExpDone := true, schedule := [] }

theorem sameRun_asPrecomputed (s : State) : SameRun s s.asPrecomputed := ⟨rfl, rfl, rfl, rfl, rfl, rfl⟩

theorem sameRun_of_asPrecomputed_eq {s t : State} (h : s.asPrecomputed = t.asPrecomputed) : SameRun s t := by
  have hs := sameRun_asPrecomputed s
  have ht := sameRun_asPrecomputed t
  rw [h] at hs
  exact ⟨hs.ops.trans ht.ops.symm, hs.fault.trans ht.fault.symm, hs.commands.trans ht.commands.symm,
    hs.index.trans ht.index.symm, hs.y.trans ht.y.symm, hs.observed.trans ht.observed.symm⟩

/-- A generator turn is not seen in the PRECOMPUTED core. -/
theorem generatorTurn_asPrecomputed (g : GenStep) (s : State) :
    (generatorTurn g s).asPrecomputed = s.asPrecomputed := by
  unfold generatorTurn
  split
  · cases g <;> rfl
  · rfl

/-- Every ROM of the PRECOMPUTED core holds its contents (R106). -/
theorem holds_asPrecomputed (s : State) (rom : RomName) : s.asPrecomputed.holds rom :=
  holds_of_precomputed rfl rfl rfl rfl rom

/-- Ready tables read as those of the PRECOMPUTED core. -/
theorem romRead_asPrecomputed {s : State} (hf : s.romsFilled) (ht : s.tablesReady = true) (rom : RomName) (i : Nat) :
    s.asPrecomputed.romRead rom i = s.romRead rom i := by
  by_cases hi : i < romSize rom
  · rw [hf ht rom i hi, holds_asPrecomputed s rom i hi]
  · simp [State.romRead, hi]

/-! ## The hold lifts -/

/-- From the invariant, with no fault and no turn scheduled, the pending generator steps run and nothing else happens. -/
theorem run_pendingGenSteps {s : State} (hinv : s.Inv) (hf : s.fault = none) (hsch : s.schedule = []) :
    ∃ t, Host.Core.run core (pendingGenSteps s) s = .next t ∧ t.Inv ∧ t.tablesReady = true ∧ t.schedule = [] ∧
      t.asPrecomputed = s.asPrecomputed := by
  generalize hn : pendingGenSteps s = n
  induction n generalizing s with
  | zero => exact ⟨s, rfl, hinv, pendingGenSteps_eq_zero_iff.mp hn, hsch, rfl⟩
  | succ n ih =>
    obtain ⟨g, hen, hstep⟩ := step_of_pending hinv hf hsch (by omega)
    obtain ⟨-, hfault, -, -, -, -, -, hschedule⟩ := genWrite_keeps g s
    have hpending := pendingGenSteps_genWrite hen
    obtain ⟨t, hrun, htinv, hready, htsch, hsame⟩ :=
      ih (genWrite_inv hinv hen) (hfault.trans hf) (hschedule.trans hsch) (by omega)
    refine ⟨t, (run_succ_of_step n hstep).trans hrun, htinv, hready, htsch, hsame.trans ?_⟩
    rw [← generatorTurn_of_enabled hen, generatorTurn_asPrecomputed]

/-- Settles O38: at most three generator steps are pending, and they leave the run as it is. -/
theorem holdLiftsWithinThreeSteps : Obligations.HoldLiftsWithinThreeSteps := by
  intro s hinv hf hsch
  obtain ⟨t, hrun, -, hready, -, hsame⟩ := run_pendingGenSteps hinv hf hsch
  obtain ⟨hops, hfault, hcommands, hindex, -, hobserved⟩ := sameRun_of_asPrecomputed_eq hsame
  exact ⟨pendingGenSteps s, t, pendingGenSteps_le s, hrun, hready, hcommands, hindex, hops, hfault, hobserved⟩

end Sys2Proof.Machine

/-! # Proofs: the two realisations give the same run -/

namespace Sys2Proof.Machine

/-! ## A command on both cores -/

/-- `r`, an outcome on `s`, agrees with `r'`, one on `s.asPrecomputed`: `s` is held before its tables are ready, or the
next states correspond. -/
def AgreesOrHeld (s : State) (r r' : Result) : Prop :=
  (s.tablesReady = false ∧ r = .next s) ∨ ∃ t : State, r = .next t ∧ r' = .next t.asPrecomputed

theorem agreesOrHeld_raise (s : State) (id : Nat) (op : Opcode) (info : FaultInfo) :
    AgreesOrHeld s (raise s id op info) (raise s.asPrecomputed id op info) := .inr ⟨_, rfl, rfl⟩

theorem agreesOrHeld_finishConfig (s : State) (id : Nat) (o : Operator) :
    AgreesOrHeld s (finishConfig s id o) (finishConfig s.asPrecomputed id o) := .inr ⟨_, rfl, rfl⟩

theorem agreesOrHeld_withOperator (s : State) (id : Nat) (op : Opcode) {k k' : Operator → Result}
    (h : ∀ o, AgreesOrHeld s (k o) (k' o)) :
    AgreesOrHeld s (withOperator s id op k) (withOperator s.asPrecomputed id op k') := by
  have hops : s.asPrecomputed.ops = s.ops := rfl
  simp only [withOperator, hops]
  cases s.ops[id]? with
  | none => exact agreesOrHeld_raise ..
  | some o => exact h o

/-- What comes after the hold agrees where it agrees over ready tables: the PRECOMPUTED core is never held. -/
theorem agreesOrHeld_of_ready {s : State} {r r' : Result} (h : s.tablesReady = true → AgreesOrHeld s r r') :
    AgreesOrHeld s (if s.tablesReady then r else hold s)
      (if s.asPrecomputed.tablesReady then r' else hold s.asPrecomputed) := by
  have hready : s.asPrecomputed.tablesReady = true := rfl
  cases ht : s.tablesReady with
  | false => exact .inl ⟨ht, rfl⟩
  | true => simpa [hready] using h ht

theorem agreesOrHeld_finishRead {s : State} (hf : s.romsFilled) (id : Nat) (op : Opcode) (rom : RomName) (i : Nat) :
    AgreesOrHeld s (finishRead s id op rom i) (finishRead s.asPrecomputed id op rom i) := by
  refine agreesOrHeld_of_ready fun ht => ?_
  rw [romRead_asPrecomputed hf ht]
  cases s.romRead rom i with
  | none => exact agreesOrHeld_raise ..
  | some v => exact .inr ⟨_, rfl, rfl⟩

theorem agreesOrHeld_sampleLookup {s : State} (hf : s.romsFilled) (ht : s.tablesReady = true) (id : Nat) (o : Operator)
    (r : SampleRegs) (realPhase : BitVec 20) (vib ampDiff : Word) :
    AgreesOrHeld s (sampleLookup s id o r realPhase vib ampDiff)
      (sampleLookup s.asPrecomputed id o r realPhase vib ampDiff) := by
  simp only [sampleLookup, romRead_asPrecomputed hf ht]
  split
  · exact agreesOrHeld_raise ..
  · split
    · split
      · exact agreesOrHeld_raise ..
      · exact .inr ⟨_, rfl, rfl⟩
    · exact agreesOrHeld_raise ..

/-- A command on filled ROMs is held before the tables are ready, or does the same on the PRECOMPUTED core (R105, R106). -/
theorem exec_agreesOrHeld {s : State} (hf : s.romsFilled) (i : Instr) :
    AgreesOrHeld s (exec i s) (exec i s.asPrecomputed) := by
  cases i with
  | setFrequency id | setMultiplier id =>
    refine agreesOrHeld_withOperator s id _ fun o => ?_
    split
    · exact agreesOrHeld_raise ..
    · exact agreesOrHeld_finishConfig ..
  | setRectify id | start id => exact agreesOrHeld_withOperator s id _ fun o => agreesOrHeld_finishConfig ..
  | fetchSample id freqDiff vib ampDiff =>
    refine agreesOrHeld_withOperator s id _ fun o => ?_
    cases sampleRegs o with
    | error field => exact agreesOrHeld_raise ..
    | ok r => exact agreesOrHeld_of_ready fun ht => agreesOrHeld_sampleLookup hf ht ..
  | dbToLinear id db =>
    simp only [exec, execDbToLinear]
    split
    · exact agreesOrHeld_raise ..
    · exact agreesOrHeld_finishRead hf ..
  | readRom id sel index =>
    simp only [exec, execReadRom]
    split
    · exact agreesOrHeld_raise ..
    · split
      · exact agreesOrHeld_raise ..
      · exact agreesOrHeld_finishRead hf ..
  | reserved id => exact agreesOrHeld_raise ..

/-! ## A step on both cores -/

/-- With no turn scheduled and the tables ready, the command unit has the turn. -/
theorem nextTurn_of_ready {s : State} (hsch : s.schedule = []) (ht : s.tablesReady = true) :
    nextTurn s = .commandUnit := by
  simp only [State.tablesReady, Bool.and_eq_true] at ht
  obtain ⟨⟨he, hl⟩, hf⟩ := ht
  simp [nextTurn, hsch, defaultTurn, genEnabled, he, hl, hf]

theorem nextTurn_asPrecomputed (s : State) : nextTurn s.asPrecomputed = .commandUnit := nextTurn_of_ready rfl rfl

/-- The command unit's turn with no command pending only uses up the turn (R232). -/
theorem step_of_no_command {s : State} (hf : s.fault = none) (hn : nextTurn s = .commandUnit) (hc : s.commands = []) :
    step s = .next (dropTurn s) := by
  simp only [step_of_no_fault hf, hn, agentTurn, commandTurn, dropTurn_commands, hc]

/-- A core with no fault takes its step. -/
theorem step_answers {s : State} (hf : s.fault = none) : ∃ t, step s = .next t := by
  cases hn : nextTurn s with
  | generator g => exact ⟨_, by rw [step_of_no_fault hf, hn]; rfl⟩
  | commandUnit =>
    cases hc : s.commands with
    | nil => exact ⟨_, step_of_no_command hf hn hc⟩
    | cons c rest =>
      rw [step_of_head hf hn hc]
      exact exec_answers ..

/-- A step uses up the turn it takes. -/
theorem step_schedule {s t : State} (h : step s = .next t) : t.schedule = s.schedule.tail := by
  obtain ⟨g, -, -, rfl⟩ | ⟨-, -, -, rfl⟩ | ⟨c, rest, -, -, -, hexec⟩ := step_cases h
  · obtain ⟨-, -, -, -, -, -, -, hschedule⟩ := generatorTurn_keeps g (dropTurn s)
    exact hschedule
  · rfl
  · obtain ⟨-, -, -, -, -, -, -, hschedule⟩ := exec_keeps_roms hexec
    exact hschedule

/-- A step is a generator turn or a hold, where the PRECOMPUTED core stays, or the PRECOMPUTED core takes the same step. -/
theorem step_asPrecomputed {s t : State} (hf : s.romsFilled) (h : step s = .next t) :
    ((s.tablesReady = false ∨ nextTurn s ≠ .commandUnit) ∧ t.asPrecomputed = s.asPrecomputed) ∨
    step s.asPrecomputed = .next t.asPrecomputed := by
  obtain ⟨g, hturn, -, rfl⟩ | ⟨-, hfault, hc, rfl⟩ | ⟨c, rest, -, hfault, hc, hexec⟩ := step_cases h
  · exact .inl ⟨.inr (by simp [hturn]), generatorTurn_asPrecomputed g (dropTurn s)⟩
  · exact .inr (step_of_no_command (s := s.asPrecomputed) hfault (nextTurn_asPrecomputed s) hc)
  · have hhead := step_of_head (s := s.asPrecomputed) hfault (nextTurn_asPrecomputed s) hc
    obtain ⟨ht, hheld⟩ | ⟨t', hnext, hnext'⟩ := exec_agreesOrHeld (s := dropTurn s) hf (decode c)
    · obtain rfl : dropTurn s = t := by simpa using hheld.symm.trans hexec
      exact .inl ⟨.inl ht, rfl⟩
    · obtain rfl : t' = t := by simpa using hnext.symm.trans hexec
      exact .inr (hhead.trans hnext')

/-- With no turn scheduled and the tables ready, a step of the PRECOMPUTED core is one of this core. -/
theorem exists_step_of_asPrecomputed {s u : State} (hf : s.romsFilled) (ht : s.tablesReady = true)
    (hsch : s.schedule = []) (h : step s.asPrecomputed = .next u) : ∃ t, step s = .next t ∧ t.asPrecomputed = u := by
  have hfault : s.asPrecomputed.fault = none := fault_none_of_step h
  obtain ⟨t, hstep⟩ := step_answers (s := s) hfault
  obtain ⟨hstay, -⟩ | hboth := step_asPrecomputed hf hstep
  · simp [ht, nextTurn_of_ready hsch ht] at hstay
  · exact ⟨t, hstep, by simpa using hboth.symm.trans h⟩

/-! ## A run on both cores -/

/-- Whatever a core reaches, the PRECOMPUTED core reaches in at most as many steps. -/
theorem run_asPrecomputed {s t : State} {k : Nat} (hinv : s.Inv) (h : Host.Core.run core k s = .next t) :
    ∃ k' ≤ k, Host.Core.run core k' s.asPrecomputed = .next t.asPrecomputed := by
  induction k generalizing s with
  | zero =>
    cases h
    exact ⟨0, le_rfl, rfl⟩
  | succ k ih =>
    obtain ⟨s', hstep, hrest⟩ := exists_step_of_run_succ h
    obtain ⟨k', hk, hrun⟩ := ih (stepKeepsInvariant _ _ hinv hstep) hrest
    obtain ⟨-, hstay⟩ | hboth := step_asPrecomputed hinv.romsFilled hstep
    · exact ⟨k', by omega, hstay ▸ hrun⟩
    · exact ⟨k' + 1, by omega, (run_succ_of_step k' hboth).trans hrun⟩

/-- Once its tables are ready, and with no turn scheduled, a core keeps step with the PRECOMPUTED core. -/
theorem exists_run_of_asPrecomputed {s u : State} {k : Nat} (hinv : s.Inv) (ht : s.tablesReady = true)
    (hsch : s.schedule = []) (h : Host.Core.run core k s.asPrecomputed = .next u) :
    ∃ t : State, Host.Core.run core k s = .next t ∧ t.asPrecomputed = u := by
  induction k generalizing s with
  | zero =>
    cases h
    exact ⟨s, rfl, rfl⟩
  | succ k ih =>
    obtain ⟨u', hustep, hrest⟩ := exists_step_of_run_succ h
    obtain ⟨s', hstep, rfl⟩ := exists_step_of_asPrecomputed hinv.romsFilled ht hsch hustep
    obtain ⟨-, -, -, hready⟩ := readyTablesStayConstant _ _ hstep
    have hsch' : s'.schedule = [] := by rw [step_schedule hstep, hsch, List.tail_nil]
    obtain ⟨t, hrun, hsame⟩ := ih (stepKeepsInvariant _ _ hinv hstep) (hready ht).1 hsch' hrest
    exact ⟨t, (run_succ_of_step k hstep).trans hrun, hsame⟩

/-- The `k`-step state of the PRECOMPUTED core is reached once the pending generator steps have run as well. -/
theorem exists_run_add_pendingGenSteps {s u : State} {k : Nat} (hinv : s.Inv) (hf : s.fault = none)
    (hsch : s.schedule = []) (h : Host.Core.run core k s.asPrecomputed = .next u) :
    ∃ t : State, Host.Core.run core (k + pendingGenSteps s) s = .next t ∧ t.asPrecomputed = u := by
  obtain ⟨r, hfill, hrinv, hready, hrsch, hsame⟩ := run_pendingGenSteps hinv hf hsch
  obtain ⟨t, hrun, htu⟩ := exists_run_of_asPrecomputed hrinv hready hrsch (hsame.symm ▸ h)
  exact ⟨t, by rw [Nat.add_comm, run_add k hfill, hrun], htu⟩

theorem powerOn_commands_schedule_inv (mode : RomMode) {n : Nat} (hn : 1 ≤ n) (cs : List Command) (ts : List Turn) :
    State.Inv { State.powerOn mode n with commands := cs, schedule := ts } := { powerOn_inv mode hn with }

/-- Settles O51: the PRECOMPUTED core follows every run of the GENERATED one, and the GENERATED core keeps step with it once
its three generator steps have run. -/
theorem realisationsAgree : Obligations.RealisationsAgree := by
  intro n cs hn
  have hinv := powerOn_commands_schedule_inv .generated hn cs
  refine ⟨fun ts k t h => ?_, fun k u h => ?_⟩
  · obtain ⟨k', hk, hrun⟩ := run_asPrecomputed (hinv ts) h
    exact ⟨k', t.asPrecomputed, hk, hrun, sameRun_asPrecomputed t⟩
  · obtain ⟨t, hrun, rfl⟩ := exists_run_add_pendingGenSteps (hinv []) rfl rfl h
    exact ⟨t, hrun, sameRun_asPrecomputed t⟩

end Sys2Proof.Machine

/-! # Proofs: the results of the configuration commands -/

namespace Sys2Proof.Machine

/-! ## The operators after a command -/

/-- The operator a command has written reads back as written. -/
theorem ops_getElem?_written {s : State} {id : Nat} {o : Operator} (o' : Operator) (v : Option Word)
    (ho : s.ops[id]? = some o) : ((s.setOp id o').complete v).ops[id]? = some o' :=
  List.getElem?_set_self (List.getElem?_eq_some_iff.mp ho).1

/-- A command leaves every operator but its own, and their number (R209). -/
theorem exec_keeps_other_ops {i : Instr} {s t : State} (h : exec i s = .next t) :
    (∀ j, j ≠ i.id → t.ops[j]? = s.ops[j]?) ∧ t.ops.length = s.ops.length := by
  cases exec_shape h with
  | raised | held | read => exact ⟨fun _ _ => rfl, rfl⟩
  | wrote => exact ⟨fun j hj => List.getElem?_set_ne hj.symm, List.length_set⟩

/-! ## The commands by their operand checks -/

/-- The shift of R130 as the product of its quoted form. -/
theorem phaseIncrementOf_eq (fNumber : Word) (octave : Nat) :
    phaseIncrementOf fNumber octave = BitVec.ofNat 20 (fNumber.toNat * 2 ^ octave) := by
  rw [phaseIncrementOf, Nat.shiftLeft_eq]

theorem exec_setFrequency_of_octave {id : Nat} {fNumber octave : Word} {s : State} {o : Operator} {k : Nat}
    (ho : s.ops[id]? = some o) (hk : octaveOf octave = some k) :
    exec (.setFrequency id fNumber octave) s = .next ((s.setOp id { o with
      fNumber := some fNumber, phaseIncrement := some (phaseIncrementOf fNumber k) }).complete none) := by
  simp only [exec, execSetFrequency, withOperator_some _ _ ho, hk, finishConfig]

theorem exec_setFrequency_bad_octave {id : Nat} {fNumber octave : Word} {s : State} (hid : id < s.nOperators)
    (hk : octaveOf octave = none) :
    exec (.setFrequency id fNumber octave) s =
      .next (s.takeFault id opSetFrequency (.operand .octave octave.toInt)) := by
  simp only [exec, execSetFrequency, withOperator_some _ _ (List.getElem?_eq_getElem hid), hk, raise]

theorem exec_setMultiplier_of_mult {id : Nat} {mult m : Word} {s : State} {o : Operator}
    (ho : s.ops[id]? = some o) (hm : multOf mult = some m) :
    exec (.setMultiplier id mult) s = .next ((s.setOp id { o with multiplier := some m }).complete none) := by
  simp only [exec, execSetMultiplier, withOperator_some _ _ ho, hm, finishConfig]

theorem exec_setMultiplier_bad_mult {id : Nat} {mult : Word} {s : State} (hid : id < s.nOperators)
    (hm : multOf mult = none) :
    exec (.setMultiplier id mult) s = .next (s.takeFault id opSetMultiplier (.operand .mult mult.toInt)) := by
  simp only [exec, execSetMultiplier, withOperator_some _ _ (List.getElem?_eq_getElem hid), hm, raise]

theorem exec_setRectify_of_operator {id : Nat} {enabled : Bool} {s : State} {o : Operator}
    (ho : s.ops[id]? = some o) :
    exec (.setRectify id enabled) s =
      .next ((s.setOp id { o with rectifyEnabled := some enabled }).complete none) :=
  withOperator_some _ _ ho

/-- An operator after START (R133). -/
def Operator.started (o : Operator) : Operator := { o with phase := some 0#20, previousOutput := some 0#21 }

theorem exec_start_of_operator {id : Nat} {s : State} {o : Operator} (ho : s.ops[id]? = some o) :
    exec (.start id) s = .next ((s.setOp id o.started).complete none) :=
  withOperator_some _ _ ho

/-! ## The results -/

/-- Settles O14: the ID check, then the octave check, then both writes. -/
theorem setFrequencyResult : Obligations.SetFrequencyResult := by
  intro id fNumber octave c s
  refine ⟨fun o ho h0 h1 => ?_, missingInstanceFaults (.setFrequency id fNumber octave) s rfl, fun hid h => ?_⟩
  · rw [← phaseIncrementOf_eq]
    exact exec_setFrequency_of_octave ho (octaveOf_pass h0 h1)
  · exact exec_setFrequency_bad_octave hid (octaveOf_fail h)

/-- Settles O15: the ID check, then the mult check, then the write. -/
theorem setMultiplierResult : Obligations.SetMultiplierResult := fun id mult _ _ s =>
  ⟨fun _ ho h => exec_setMultiplier_of_mult ho (multOf_pass h),
    missingInstanceFaults (.setMultiplier id mult) s rfl,
    fun hid h => exec_setMultiplier_bad_mult hid (multOf_fail h)⟩

/-- Settles O16: the tuple decodes to the bit A[0], which is written where the ID is in range. -/
theorem setRectifyResult : Obligations.SetRectifyResult := fun id a _ _ s =>
  ⟨fun _ ho => exec_setRectify_of_operator ho, missingInstanceFaults (.setRectify id (a.getLsbD 0)) s rfl⟩

/-- A second START writes what the first one wrote, or faults as it did (R133). -/
theorem exec_start_start_ops {id : Nat} {s t u : State} (h : exec (.start id) s = .next t)
    (h' : exec (.start id) t = .next u) : u.ops = t.ops := by
  cases ho : s.ops[id]? with
  | none =>
    obtain ⟨-, hlength⟩ := exec_keeps_other_ops h
    have hid : t.nOperators ≤ id := hlength.trans_le ((ops_none_iff s id).mp ho)
    rw [missingInstanceFaults (.start id) t rfl hid] at h'
    cases h'
    rfl
  | some o =>
    rw [exec_start_of_operator ho] at h
    cases h
    rw [exec_start_of_operator (ops_getElem?_written _ _ ho)] at h'
    cases h'
    exact List.set_set ..

/-- Settles O17: START writes both registers where the ID is in range, and again writes the same. -/
theorem startResult : Obligations.StartResult := fun id _ _ _ _ _ _ s =>
  ⟨fun _ ho => exec_start_of_operator ho, missingInstanceFaults (.start id) s rfl,
    fun _ _ => exec_start_start_ops⟩

/-! ## The frame -/

/-- A configuration command leaves the registers it does not name. -/
theorem Configures.keeps {i : Instr} {o o' : Operator} (hc : Configures i o o') :
    (i.op ≠ opSetFrequency → o'.fNumber = o.fNumber ∧ o'.phaseIncrement = o.phaseIncrement) ∧
    (i.op ≠ opSetMultiplier → o'.multiplier = o.multiplier) ∧
    (i.op ≠ opSetRectify → o'.rectifyEnabled = o.rectifyEnabled) ∧
    (i.op ≠ opStart → o'.phase = o.phase ∧ o'.previousOutput = o.previousOutput) := by
  cases hc with
  | frequency => exact ⟨fun h => absurd rfl h, fun _ => rfl, fun _ => rfl, fun _ => ⟨rfl, rfl⟩⟩
  | multiplier => exact ⟨fun _ => ⟨rfl, rfl⟩, fun h => absurd rfl h, fun _ => rfl, fun _ => ⟨rfl, rfl⟩⟩
  | rectify => exact ⟨fun _ => ⟨rfl, rfl⟩, fun _ => rfl, fun h => absurd rfl h, fun _ => ⟨rfl, rfl⟩⟩
  | start => exact ⟨fun _ => ⟨rfl, rfl⟩, fun _ => rfl, fun _ => rfl, fun h => absurd rfl h⟩

/-- A command that returns nothing leaves the observation (R84, R240). -/
theorem exec_observed_of_not_returns {i : Instr} {s t : State} (hr : returnsResult i = false)
    (h : exec i s = .next t) : t.observed = s.observed := by
  cases exec_shape h with
  | raised | held => rfl
  | read hr' => simp [hr] at hr'
  | wrote _ _ _ _ v hv =>
    obtain rfl : v = none := by simpa [hr] using hv
    simp

/-- Settles O18: a configuration command faults with its operator as it was, or writes what `Configures` names. -/
theorem configurationFrame : Obligations.ConfigurationFrame := by
  intro i s t hs hr h
  obtain ⟨hother, hlength⟩ := exec_keeps_other_ops h
  obtain ⟨he, hl, hf, hexp, hlogSin, hfastExp, hmode, hschedule⟩ := exec_keeps_roms h
  refine ⟨hother, hlength, fun o o' ho ho' => ?_, exec_romRead h, he, hl, hf, hexp, hlogSin, hfastExp, hmode,
    hschedule, exec_observed_of_not_returns hr h, exec_fault_of_completes h⟩
  obtain ⟨_, _, rfl⟩ | ⟨p, p', hp, hc, rfl⟩ := exec_configuration_cases hs hr h
  · obtain rfl : o = o' := Option.some.inj (ho.symm.trans ho')
    exact ⟨fun _ => ⟨rfl, rfl⟩, fun _ => rfl, fun _ => rfl, fun _ => ⟨rfl, rfl⟩⟩
  · obtain rfl : p = o := Option.some.inj (hp.symm.trans ho)
    obtain rfl : p' = o' := Option.some.inj ((ops_getElem?_written p' none hp).symm.trans ho')
    exact hc.keeps

end Sys2Proof.Machine

/-! # Proofs: the first sample after START -/

namespace Sys2Proof.Machine

/-- A configured operator after START is written, with both phase registers 0. -/
theorem exists_sampleRegs_started {o : Operator} (hincrement : o.phaseIncrement ≠ none)
    (hmultiplier : o.multiplier ≠ none) (hrectify : o.rectifyEnabled ≠ none) :
    ∃ r, sampleRegs o.started = .ok r ∧ r.phase = 0#20 ∧ r.previousOutput = 0#21 := by
  obtain ⟨r, hr⟩ := exists_sampleRegs_ok (o := o.started) (Option.some_ne_none _) (Option.some_ne_none _) hincrement
    hmultiplier hrectify
  obtain ⟨hphase, hprevious, -⟩ := sampleRegs_ok_iff.mp hr
  exact ⟨r, hr, (Option.some.inj hphase).symm, (Option.some.inj hprevious).symm⟩

/-- A FETCH_SAMPLE that completes over filled ROMs ends in `finishSample` with some word of FASTEXP. -/
theorem exec_fetchSample_completed {id : Nat} {freqDiff vib ampDiff : Word} {s t : State} {o : Operator}
    {r : SampleRegs} (ho : s.ops[id]? = some o) (hr : sampleRegs o = .ok r) (ht : s.tablesReady = true)
    (hf : s.romsFilled) (h : exec (.fetchSample id freqDiff vib ampDiff) s = .next t) (hindex : t.index ≠ s.index) :
    ∃ db, finishSample s id o r (realPhaseOf r.phase freqDiff) vib (fastExpContents db) = .next t := by
  change execFetchSample id freqDiff vib ampDiff s = .next t at h
  rw [execFetchSample_filled ho hr ht hf] at h
  split at h
  · exact ⟨_, h⟩
  · cases h
    exact absurd rfl hindex

/-- With no previous output the average of R157 is half the output. -/
theorem smooth_zero (output : Int) : smooth output 0#21 = output / 2 := by
  simp [smooth, Int.shiftRight_eq_div_pow]

/-- Y holds half of every output exactly (R157, R160). -/
theorem toInt_ofInt_smooth_zero (negate rectifyEnabled : Bool) (db : Nat) :
    (BitVec.ofInt 32 (smooth (signedOutput negate rectifyEnabled (fastExpContents db)) 0#21)).toInt =
      signedOutput negate rectifyEnabled (fastExpContents db) / 2 := by
  have hrange := (signedOutput_range negate rectifyEnabled db).1
  rw [smooth_zero]
  exact BitVec.toInt_ofInt_eq_self (by decide) (by omega) (by omega)

/-- At phase 0, with freqDiff = 0 and ampDiff = 0, the lookups of FETCH_SAMPLE read 2137 and then 6420 (R161). -/
theorem exec_fetchSample_phase_zero {id : Nat} {vib : Word} {s : State} {o : Operator} {r : SampleRegs}
    (ho : s.ops[id]? = some o) (hr : sampleRegs o = .ok r) (ht : s.tablesReady = true) (hf : s.romsFilled)
    (hphase : r.phase = 0#20) :
    exec (.fetchSample id 0#32 vib 0#32) s = finishSample s id o r 0#20 vib 6420 := by
  have hreal : realPhaseOf r.phase 0#32 = 0#20 := by rw [hphase]; rfl
  have hlevel : logSin 0#20 = 2137 := by decide +kernel
  have hlinear : fastExpContents 2137 = 6420 := by decide +kernel
  change execFetchSample id 0#32 vib 0#32 s = _
  rw [execFetchSample_filled ho hr ht hf, hreal, hlevel, if_pos (by decide)]
  exact congrArg _ hlinear

/-- Settles O24: after START the previous output is 0, so the average halves the output; at phase 0 that is 6420. -/
theorem firstSampleAfterStart : Obligations.FirstSampleAfterStart := by
  intro id freqDiff vib ampDiff s t o hf ht ho hincrement hmultiplier hrectify hstart
  obtain ⟨r, hr, hphase, hprevious⟩ := exists_sampleRegs_started hincrement hmultiplier hrectify
  rw [exec_start_of_operator ho] at hstart
  cases hstart
  have hstarted := ops_getElem?_written o.started none ho
  refine ⟨fun u h hindex => ?_, ?_⟩
  · obtain ⟨db, hdb⟩ := exec_fetchSample_completed hstarted hr ht hf h (by omega)
    cases hdb
    refine ⟨_, _, _, rfl, ops_getElem?_written _ _ hstarted, rfl, ?_⟩
    rw [hprevious, toInt_ofInt_signedOutput, toInt_ofInt_smooth_zero]
  · refine ⟨_, _, exec_fetchSample_phase_zero hstarted hr ht hf hphase, ?_, ops_getElem?_written _ _ hstarted, rfl⟩
    rw [hprevious]
    rfl

end Sys2Proof.Machine

/-! # Proofs: the phase arithmetic in the integers -/

namespace Sys2Proof.Machine

/-- Cutting an integer's pattern to fewer bits is taking its pattern at the smaller width. -/
theorem setWidth_ofInt_of_le {v w : Nat} (h : v ≤ w) (x : Int) : (BitVec.ofInt w x).setWidth v = BitVec.ofInt v x := by
  obtain ⟨n, rfl | rfl⟩ := x.eq_nat_or_neg
  · rw [BitVec.ofInt_natCast, BitVec.ofInt_natCast, BitVec.setWidth_ofNat_of_le h]
  · rw [BitVec.ofInt_neg, BitVec.ofInt_neg, BitVec.setWidth_neg_of_le h, BitVec.ofInt_natCast, BitVec.ofInt_natCast,
      BitVec.setWidth_ofNat_of_le h]

/-- A pattern of `w` bits keeps an integer mod 2^w only. -/
theorem ofInt_emod_two_pow (w : Nat) (x : Int) : BitVec.ofInt w (x % 2 ^ w) = BitVec.ofInt w x := by
  apply BitVec.eq_of_toNat_eq
  simp [BitVec.toNat_ofInt]

/-- The phase is not negative, so its shift is a division (R151). -/
theorem realPhaseOf_eq (phase : BitVec 20) (freqDiff : Word) :
    realPhaseOf phase freqDiff = BitVec.ofInt 20 ((phase.toNat / 4 : Nat) + freqDiff.toInt) := by
  rw [realPhaseOf, Nat.shiftRight_eq_div_pow]

/-- `realPhase` as the integer of R151. -/
theorem toNat_realPhaseOf (phase : BitVec 20) (freqDiff : Word) :
    ((realPhaseOf phase freqDiff).toNat : Int) = ((phase.toNat : Int) / 4 + freqDiff.toInt) % 2 ^ 20 := by
  rw [realPhaseOf_eq, BitVec.toNat_ofInt]
  omega

/-- Settles O25: the pattern of a sum or product is that of its terms, at every width, and cutting a pattern to 20 bits
gives the pattern of the same integer. -/
theorem phaseWidthIndependent : Obligations.PhaseWidthIndependent := by
  intro w phase inc mult freqDiff vib hw
  refine ⟨?_, ?_⟩
  · rw [realPhaseOf_eq, ← BitVec.ofInt_natCast, ← BitVec.ofInt_add, setWidth_ofInt_of_le hw]
  · simp only [phaseAdvance, ← BitVec.ofInt_natCast w, ← BitVec.ofInt_mul, ← BitVec.ofInt_add, setWidth_ofInt_of_le hw]

end Sys2Proof.Machine

/-! # Proofs: what FETCH_SAMPLE leaves unchanged -/

namespace Sys2Proof.Machine

/-- The lookups of a FETCH_SAMPLE leave the operators where they fault, or write a sample into the operator. -/
theorem sampleLookup_ops {s t : State} {id : Nat} {o : Operator} {r : SampleRegs} {realPhase : BitVec 20}
    {vib ampDiff : Word} (h : sampleLookup s id o r realPhase vib ampDiff = .next t) :
    t.ops = s.ops ∨ ∃ output, t.ops = s.ops.set id (sampledOperator o r vib output) := by
  unfold sampleLookup at h
  split at h
  · cases h
    exact .inl rfl
  · split at h
    · split at h <;> cases h
      · exact .inl rfl
      · exact .inr ⟨_, rfl⟩
    · cases h
      exact .inl rfl

/-- A FETCH_SAMPLE leaves the operators where it faults or is held, or writes a sample into its own. -/
theorem exec_fetchSample_writes {id : Nat} {freqDiff vib ampDiff : Word} {s t : State}
    (h : exec (.fetchSample id freqDiff vib ampDiff) s = .next t) :
    t.ops = s.ops ∨ ∃ o r output, s.ops[id]? = some o ∧ t.ops = s.ops.set id (sampledOperator o r vib output) := by
  obtain rfl | ⟨o, ho, hk⟩ := withOperator_cases h
  · exact .inl rfl
  · split at hk
    · cases hk
      exact .inl rfl
    · split at hk
      · obtain hops | ⟨output, hops⟩ := sampleLookup_ops hk
        · exact .inl hops
        · exact .inr ⟨o, _, output, ho, hops⟩
      · cases hk
        exact .inl rfl

/-- A FETCH_SAMPLE leaves the four configuration registers of its operator (R158). -/
theorem exec_fetchSample_keeps_configuration {id : Nat} {freqDiff vib ampDiff : Word} {s t : State} {o o' : Operator}
    (h : exec (.fetchSample id freqDiff vib ampDiff) s = .next t) (ho : s.ops[id]? = some o)
    (ho' : t.ops[id]? = some o') :
    o'.fNumber = o.fNumber ∧ o'.phaseIncrement = o.phaseIncrement ∧ o'.multiplier = o.multiplier ∧
      o'.rectifyEnabled = o.rectifyEnabled := by
  obtain hops | ⟨p, r, output, hp, hops⟩ := exec_fetchSample_writes h
  · obtain rfl : o = o' := Option.some.inj (ho.symm.trans (hops ▸ ho'))
    exact ⟨rfl, rfl, rfl, rfl⟩
  · obtain rfl : p = o := Option.some.inj (hp.symm.trans ho)
    rw [hops, List.getElem?_set_self (List.getElem?_eq_some_iff.mp hp).1] at ho'
    cases ho'
    exact ⟨rfl, rfl, rfl, rfl⟩

/-- Settles O27: a command leaves the other operators and every ROM, and FETCH_SAMPLE the configuration of its own. -/
theorem fetchSampleFrame : Obligations.FetchSampleFrame := by
  intro id freqDiff vib ampDiff s t h
  obtain ⟨hother, hlength⟩ := exec_keeps_other_ops h
  obtain ⟨he, hl, hf, hexp, hlogSin, hfastExp, hmode, hschedule⟩ := exec_keeps_roms h
  exact ⟨hother, hlength, fun _ _ => exec_fetchSample_keeps_configuration h, exec_romRead h, he, hl, hf, hexp, hlogSin,
    hfastExp, hmode, hschedule, exec_fault_of_completes h⟩

end Sys2Proof.Machine

/-! # Proofs: the result of FETCH_SAMPLE -/

namespace Sys2Proof.Machine

/-! ## The domain check -/

/-- Over filled ROMs a FETCH_SAMPLE whose dB sum lies in FASTEXP completes with the sample of that word (R154, R158). -/
theorem exec_fetchSample_in_domain {id : Nat} {freqDiff vib ampDiff : Word} {s : State} {o : Operator} {r : SampleRegs}
    {db : Int} (ho : s.ops[id]? = some o) (hr : sampleRegs o = .ok r) (ht : s.tablesReady = true) (hf : s.romsFilled)
    (hdb : db = logSin (realPhaseOf r.phase freqDiff) + ampDiff.toInt) (hlow : 0 ≤ db) (hhigh : db ≤ 8191) :
    exec (.fetchSample id freqDiff vib ampDiff) s =
      finishSample s id o r (realPhaseOf r.phase freqDiff) vib (fastExpContents db.toNat) := by
  subst hdb
  exact (execFetchSample_filled ho hr ht hf).trans (if_pos ⟨hlow, hhigh⟩)

/-- Over filled ROMs a FETCH_SAMPLE whose dB sum lies outside FASTEXP raises DomainFault (R154, R201). -/
theorem exec_fetchSample_outside_domain {id : Nat} {freqDiff vib ampDiff : Word} {s : State} {o : Operator}
    {r : SampleRegs} {db : Int} (ho : s.ops[id]? = some o) (hr : sampleRegs o = .ok r) (ht : s.tablesReady = true)
    (hf : s.romsFilled) (hdb : db = logSin (realPhaseOf r.phase freqDiff) + ampDiff.toInt) (hout : db < 0 ∨ 8191 < db) :
    exec (.fetchSample id freqDiff vib ampDiff) s =
      .next (s.takeFault id opFetchSample (.domain db (realPhaseOf r.phase freqDiff) ampDiff.toInt)) := by
  subst hdb
  exact (execFetchSample_filled ho hr ht hf).trans (if_neg (by omega))

/-- The safe range of ampDiff: `logSin` lies in [0, 2137], and 2137 + 6054 = 8191 (R154). -/
theorem dbSum_in_domain (p : BitVec 20) {ampDiff : Word} (hlow : 0 ≤ ampDiff.toInt) (hhigh : ampDiff.toInt ≤ 6054) :
    0 ≤ (logSin p : Int) + ampDiff.toInt ∧ (logSin p : Int) + ampDiff.toInt ≤ 8191 := by
  have hlogSin := logSin_le p
  omega

/-- Settles O21: a dB sum outside FASTEXP fails the domain check, and a safe ampDiff keeps the sum inside. -/
theorem domainFaultOutsideTable : Obligations.DomainFaultOutsideTable :=
  ⟨fun _ _ _ _ _ _ phase inc prev mult rect _ ho hphase hprevious hincrement hmultiplier hrectify ht hf hdb hout =>
    exec_fetchSample_outside_domain (r := ⟨phase, prev, inc, mult, rect⟩) ho
      (sampleRegs_ok_iff.mpr ⟨hphase, hprevious, hincrement, hmultiplier, hrectify⟩) ht hf hdb hout,
    fun p _ => dbSum_in_domain p⟩

/-- Settles O22: a safe ampDiff keeps the dB sum in FASTEXP, where FETCH_SAMPLE completes. -/
theorem safeAttenuationCompletes : Obligations.SafeAttenuationCompletes := by
  intro id freqDiff vib ampDiff s o ho hphase hprevious hincrement hmultiplier hrectify ht hf hlow hhigh
  obtain ⟨r, hr⟩ := exists_sampleRegs_ok hphase hprevious hincrement hmultiplier hrectify
  obtain ⟨hpos, hle⟩ := dbSum_in_domain (realPhaseOf r.phase freqDiff) hlow hhigh
  exact ⟨_, _, exec_fetchSample_in_domain ho hr ht hf rfl hpos hle, rfl, rfl, rfl⟩

/-! ## The stages in the integers -/

/-- The index read at a phase, from the phase as an integer (R150). -/
theorem logSin_eq_of_toNat {p : BitVec 20} {n : Int} (h : (p.toNat : Int) = n) :
    logSin p = logSinContents
      (if n / 2 ^ 16 % 2 = 0 then n / 2 ^ 8 % 256 else 255 - n / 2 ^ 8 % 256).toNat := by
  apply congrArg logSinContents
  rw [logSinIndex_eq]
  split <;> split <;> omega

/-- Sign and rectification, from the phase as an integer (R153, R156). -/
theorem signedOutput_negateOf {p : BitVec 20} {n : Int} (h : (p.toNat : Int) = n) (rectifyEnabled : Bool) (linear : Int) :
    signedOutput (negateOf p) rectifyEnabled linear =
      if n / 2 ^ 17 % 2 = 0 then linear else if rectifyEnabled = true then 0 else -linear := by
  rw [negateOf_eq, signedOutput]
  by_cases hn : n / 2 ^ 17 % 2 = 0
  · rw [if_pos hn, if_neg (by rw [decide_eq_true_eq]; omega)]
  · rw [if_neg hn, if_pos (by rw [decide_eq_true_eq]; omega)]

/-- The arithmetic shift of R157 is the floor of the mean. -/
theorem smooth_eq (output : Int) (previousOutput : BitVec 21) :
    smooth output previousOutput = (output + previousOutput.toInt) / 2 :=
  Int.shiftRight_eq_div_pow ..

/-- Settles O19: realPhase as an integer gives the log-sine index, the dB sum and the sign, and the sum is in FASTEXP. -/
theorem fetchSampleResult : Obligations.FetchSampleResult := by
  intro id freqDiff vib ampDiff s o phase inc prev mult rect realPhase index db output ho hphase hprevious hincrement
    hmultiplier hrectify ht hf hreal hindex hdb hlow hhigh houtput
  have hn : ((realPhaseOf phase freqDiff).toNat : Int) = realPhase := (toNat_realPhaseOf phase freqDiff).trans hreal.symm
  have hr : sampleRegs o = .ok ⟨phase, prev, inc, mult, rect⟩ :=
    sampleRegs_ok_iff.mpr ⟨hphase, hprevious, hincrement, hmultiplier, hrectify⟩
  rw [hindex, ← logSin_eq_of_toNat hn] at hdb
  rw [← signedOutput_negateOf hn] at houtput
  change exec (.fetchSample id freqDiff vib ampDiff) s = _
  rw [exec_fetchSample_in_domain ho hr ht hf hdb hlow hhigh, finishSample, ← houtput, smooth_eq, ofInt_emod_two_pow]
  rfl

/-! ## The value ranges -/

/-- A FETCH_SAMPLE completes only on a written operator and with the tables ready (R28, R105). -/
theorem written_and_ready_of_completes {id : Nat} {freqDiff vib ampDiff : Word} {s t : State} {o : Operator}
    (ho : s.ops[id]? = some o) (h : exec (.fetchSample id freqDiff vib ampDiff) s = .next t)
    (hindex : t.index ≠ s.index) : ∃ r, sampleRegs o = .ok r ∧ s.tablesReady = true := by
  cases hr : sampleRegs o with
  | error field =>
    rw [exec_fetchSample_unwritten ho hr] at h
    cases h
    exact absurd rfl hindex
  | ok r =>
    cases ht : s.tablesReady with
    | true => exact ⟨r, rfl, rfl⟩
    | false =>
      rw [exec_fetchSample_of_not_ready ho hr ht] at h
      cases h
      exact absurd rfl hindex

/-- Only rectification makes an output 0: no word of FASTEXP is 0 (R160). -/
theorem signedOutput_ne_zero (negate : Bool) (db : Nat) {rectifyEnabled : Bool} (h : rectifyEnabled = false) :
    signedOutput negate rectifyEnabled (fastExpContents db) ≠ 0 := by
  have hlow := (dbToLinear_bounds db).1
  rw [← fastExpContents_eq] at hlow
  subst h
  cases negate <;> simp [signedOutput] <;> omega

/-- Y holds the mean of two outputs in the range of R160 without loss (R157, R160). -/
theorem toInt_ofInt_smooth {output : Int} {previousOutput : BitVec 21} (hout : output.natAbs ≤ 1045504)
    (hprevious : previousOutput.toInt.natAbs ≤ 1045504) :
    (BitVec.ofInt 32 (smooth output previousOutput)).toInt = (output + previousOutput.toInt) / 2 := by
  rw [smooth_eq]
  exact BitVec.toInt_ofInt_eq_self (by decide) (by omega) (by omega)

/-- Settles O23: the output is a word of FASTEXP with a sign or 0, the previous output is in range by the invariant, and the
sum of two multiples of 4 halves to an even number. -/
theorem sampleValueRanges : Obligations.SampleValueRanges := by
  intro id freqDiff vib ampDiff s t o prev hinv ho hprev hlt h
  have hindex : t.index ≠ s.index := by omega
  obtain ⟨r, hr, ht⟩ := written_and_ready_of_completes ho h hindex
  obtain ⟨db, hdb⟩ := exec_fetchSample_completed ho hr ht hinv.romsFilled h hindex
  obtain ⟨-, hprevious, -, -, hrectify⟩ := sampleRegs_ok_iff.mp hr
  obtain rfl : prev = r.previousOutput := Option.some.inj (hprev.symm.trans hprevious)
  obtain ⟨hprevRange, hprevMod⟩ := (hinv.operators o (List.mem_of_getElem? ho)).previousOutput _ hprev
  obtain ⟨hrange, hmod⟩ := signedOutput_range (negateOf (realPhaseOf r.phase freqDiff)) r.rectifyEnabled db
  cases hdb
  refine ⟨_, _, _, rfl, ops_getElem?_written _ _ ho, rfl, ?_⟩
  rw [toInt_ofInt_signedOutput, toInt_ofInt_smooth (by omega) (by omega)]
  exact ⟨hmod, hrange, fun hfalse => signedOutput_ne_zero _ db (Option.some.inj (hrectify.symm.trans hfalse)), by omega,
    by omega, by omega, by omega⟩

end Sys2Proof.Machine

/-! # Proofs: the symmetries of the waveform -/

namespace Sys2Proof.Machine

/-! ## The bits that the waveform reads -/

/-- `logSin` reads bits [16:8] of the phase alone (R150). -/
theorem logSin_congr {p q : BitVec 20} (h : p.toNat / 2 ^ 8 % 2 ^ 9 = q.toNat / 2 ^ 8 % 2 ^ 9) : logSin p = logSin q := by
  apply congrArg logSinContents
  rw [logSinIndex_eq, logSinIndex_eq]
  split <;> split <;> omega

/-- Phases with complementary bits [16:8] share their log-sine: bit 16 selects the fold that undoes the complement of
bits [15:8] (R150). -/
theorem logSin_eq_of_complement {p q : BitVec 20} (h : p.toNat / 2 ^ 8 % 2 ^ 9 + q.toNat / 2 ^ 8 % 2 ^ 9 = 2 ^ 9 - 1) :
    logSin p = logSin q := by
  apply congrArg logSinContents
  rw [logSinIndex_eq, logSinIndex_eq]
  split <;> split <;> omega

theorem negateOf_congr {p q : BitVec 20} (h : p.toNat / 2 ^ 17 % 2 = q.toNat / 2 ^ 17 % 2) : negateOf p = negateOf q := by
  rw [negateOf_eq, negateOf_eq, h]

/-! ## Quarter wave -/

theorem toNat_xor_quarter (p : BitVec 20) : (p ^^^ 0x1FFFF#20).toNat % 2 ^ 17 = 2 ^ 17 - 1 - p.toNat % 2 ^ 17 := by
  have hcut : (p ^^^ 0x1FFFF#20).setWidth 17 = ~~~p.setWidth 17 := by
    rw [BitVec.setWidth_xor]
    exact BitVec.xor_allOnes
  have htoNat := congrArg BitVec.toNat hcut
  rwa [BitVec.toNat_not, BitVec.toNat_setWidth, BitVec.toNat_setWidth] at htoNat

/-- The source's off-by-one form: off the multiples of 256 the step from 0x1FFFF − p to 2^17 − p stays in its block (R163). -/
theorem logSin_quarter_off_by_one {p : Nat} (hp : p < 2 ^ 17) (h : p % 256 ≠ 0 ∨ p = 0 ∨ p = 0x10000) :
    logSin (BitVec.ofNat 20 p) = logSin (BitVec.ofNat 20 (2 ^ 17 - p)) := by
  obtain h | rfl | rfl := h
  · apply logSin_eq_of_complement
    rw [BitVec.toNat_ofNat, BitVec.toNat_ofNat]
    omega
  · exact logSin_congr rfl
  · rfl

/-! ## Half wave -/

theorem toNat_xor_half (p : BitVec 20) : (p ^^^ 0x20000#20).toNat % 2 ^ 17 = p.toNat % 2 ^ 17 := by
  have hcut : (p ^^^ 0x20000#20).setWidth 17 = p.setWidth 17 := by
    rw [BitVec.setWidth_xor]
    exact BitVec.xor_zero
  have htoNat := congrArg BitVec.toNat hcut
  rwa [BitVec.toNat_setWidth, BitVec.toNat_setWidth] at htoNat

theorem negateOf_xor_half (p : BitVec 20) : negateOf (p ^^^ 0x20000#20) = !negateOf p := by
  rw [negateOf, BitVec.getLsbD_xor]
  exact Bool.xor_true _

/-- Without rectification the two half-waves are each other's negative (R156). -/
theorem signedOutput_not (negate : Bool) (linear : Int) :
    signedOutput (!negate) false linear = -signedOutput negate false linear := by
  cases negate <;> simp [signedOutput]

/-- Settles O26: each symmetry is one of bits [16:8] of the phase, kept or complemented, or of bit 17; the multiples of 256 at
which the off-by-one form fails are counted. -/
theorem waveformSymmetries : Obligations.WaveformSymmetries := by
  refine ⟨fun p hp => ?_, fun p => ?_, fun p => logSin_quarter_off_by_one, by decide +kernel, fun p => ⟨?_, ?_, ?_⟩,
    fun p q h => ⟨logSin_congr (by omega), negateOf_congr (by omega)⟩⟩
  · apply logSin_eq_of_complement
    rw [BitVec.toNat_ofNat, BitVec.toNat_ofNat]
    omega
  · have hlow := toNat_xor_quarter p
    exact logSin_eq_of_complement (by omega)
  · have hlow := toNat_xor_half p
    exact logSin_congr (by omega)
  · rw [negateOf_xor_half, Bool.not_not]
  · intro linear
    rw [negateOf_xor_half, signedOutput_not, Int.neg_neg]

end Sys2Proof.Machine

/-! # Proofs: what a fault records, what it leaves, and the halt -/

namespace Sys2Proof.Machine

/-! ## Taking a fault -/

/-- Only a fault that is taken sets the record (R202). -/
theorem exists_takeFault_of_fault {i : Instr} {s t : State} (hf : s.fault = none) (h : exec i s = .next t)
    (ht : t.fault ≠ none) : ∃ info, t = s.takeFault i.id i.op info := by
  cases exec_shape h with
  | raised info => exact ⟨info, rfl⟩
  | held | read | wrote => exact absurd hf ht

/-- The code of each kind of fault, with the info it records (R201). -/
theorem FaultInfo.kind_code_cases (info : FaultInfo) :
    (∃ v, info = .op v ∧ info.kind = .illegalOperation ∧ info.kind.code = 1) ∨
    (∃ w v, info = .operand w v ∧ info.kind = .operand ∧ info.kind.code = 2) ∨
    (∃ f, info = .unwritten f ∧ info.kind = .unwritten ∧ info.kind.code = 3) ∨
    (∃ d p a, info = .domain d p a ∧ info.kind = .domain ∧ info.kind.code = 4) := by
  cases info with
  | op v => exact .inl ⟨v, rfl, rfl, rfl⟩
  | operand w v => exact .inr (.inl ⟨w, v, rfl, rfl, rfl⟩)
  | unwritten f => exact .inr (.inr (.inl ⟨f, rfl, rfl, rfl⟩))
  | domain d p a => exact .inr (.inr (.inr ⟨d, p, a, rfl, rfl, rfl⟩))

/-- Settles O41: the record is the one that `takeFault` writes. -/
theorem faultRecordContents : Obligations.FaultRecordContents := by
  intro i s t r hf h hr
  obtain ⟨info, rfl⟩ := exists_takeFault_of_fault hf h (by simp [hr])
  cases hr
  exact ⟨rfl, rfl, rfl, info.kind_code_cases⟩

/-! ## The record stays -/

/-- A driven command leaves the fault record, whether or not its word decodes (log 5). -/
@[simp] theorem State.withFetchWord_fault (s : State) (nbits w : Nat) : (s.withFetchWord nbits w).fault = s.fault := by
  unfold State.withFetchWord placeTableWord
  split <;> rfl

/-- No command clears the fault record (R203). -/
theorem exec_keeps_faulted {i : Instr} {s t : State} (hf : s.fault ≠ none) (h : exec i s = .next t) :
    t.fault ≠ none := by
  cases exec_shape h with
  | raised => simp
  | held | read | wrote => exact hf

/-! ## The halt -/

/-- A run of at least one step from a faulted core ends by name (R203, log 2). -/
theorem run_succ_of_fault {s : State} {r : FaultRecord} (k : Nat) (h : s.fault = some r) :
    Host.Core.run core (k + 1) s = .fault (.coreFaulted r.kind) := by
  have hcore : core.step s = .fault (.coreFaulted r.kind) := step_of_fault h
  simp only [Host.Core.run, hcore]

/-- Settles O42: a fault is `takeFault`, every agent and the host leave the record, and `step` looks at it first. -/
theorem faultPreciseStickyHalting : Obligations.FaultPreciseStickyHalting := by
  refine ⟨fun i s t hf h ht => ?_, fun s r hr => ⟨fun g => ?_, fun c => hr, fun nbits w => ?_, fun i t h => ?_⟩,
    fun s r hr => ⟨step_of_fault hr, fun cs ts => step_of_fault hr, fun nbits w => step_of_fault ?_,
      fun k => run_succ_of_fault k hr⟩, fun s r hr hended => ?_⟩
  · obtain ⟨info, rfl⟩ := exists_takeFault_of_fault hf h ht
    rfl
  · obtain ⟨-, hkeep, -⟩ := generatorTurn_keeps g s
    exact hkeep.trans hr
  · exact (s.withFetchWord_fault nbits w).trans hr
  · exact exec_keeps_faulted (by simp [hr]) h
  · exact (s.withFetchWord_fault nbits w).trans hr
  · obtain ⟨-, hnone⟩ := hended
    simp [hr] at hnone

end Sys2Proof.Machine

/-! # Proofs: the order of the fault conditions -/

namespace Sys2Proof.Machine

/-- The reserved selector is the only command with OP = 111 (R86). -/
theorem op_ne_opReserved {i : Instr} (h : ∀ id, i ≠ .reserved id) : i.op ≠ opReserved := by
  cases i with
  | reserved id => exact absurd rfl (h id)
  | _ => exact of_decide_eq_true rfl

/-- A command other than the reserved selector raises OperandFault where it fails its static checks (R90, R204). -/
theorem exec_of_not_admitted {i : Instr} {s : State} (ha : i.admitted s.nOperators = false)
    (hop : i.op ≠ opReserved) : ∃ which value, exec i s = .next (s.takeFault i.id i.op (.operand which value)) := by
  obtain ⟨t, h⟩ := exec_answers i s
  obtain ⟨-, which, value, rfl⟩ | ⟨hpass, -⟩ := exec_admitted_cases hop h
  · exact ⟨which, value, h⟩
  · simp [ha] at hpass

/-- An operator with an unwritten register is one that `sampleRegs` refuses (R28). -/
theorem exists_sampleRegs_error {o : Operator} (h : o.phase = none ∨ o.previousOutput = none ∨
    o.phaseIncrement = none ∨ o.multiplier = none ∨ o.rectifyEnabled = none) : ∃ f, sampleRegs o = .error f := by
  cases hr : sampleRegs o with
  | error f => exact ⟨f, rfl⟩
  | ok r => simp [sampleRegs_ok_iff.mp hr] at h

/-- The domain check comes after the hold: before the tables are ready every fault is of another kind (R204). -/
theorem kind_ne_domain_of_not_ready {i : Instr} {s t : State} {r : FaultRecord} (ht : s.tablesReady = false)
    (hf : s.fault = none) (h : exec i s = .next t) (hr : t.fault = some r) : r.kind ≠ .domain := by
  cases i with
  | setFrequency | setMultiplier | setRectify | start =>
    obtain ⟨_, _, rfl⟩ | ⟨_, _, -, -, rfl⟩ := exec_configuration_cases rfl rfl h
    · cases hr
      nofun
    · simp [hf] at hr
  | fetchSample id =>
    obtain rfl | ⟨o, ho, -⟩ := withOperator_cases h
    · cases hr
      nofun
    · cases hregs : sampleRegs o with
      | error field =>
        rw [exec_fetchSample_unwritten ho hregs] at h
        cases h
        cases hr
        nofun
      | ok regs =>
        rw [exec_fetchSample_of_not_ready ho hregs ht] at h
        cases h
        simp [hf] at hr
  | dbToLinear | readRom =>
    obtain ⟨-, _, _, rfl⟩ | ⟨ha, -⟩ := exec_admitted_cases (of_decide_eq_true rfl) h
    · cases hr
      nofun
    · rw [(romReadersAreHeld _ s ht ha).1 rfl nofun] at h
      cases h
      simp [hf] at hr
  | reserved =>
    cases h
    cases hr
    nofun

/-- Settles O43: each clause is the check of that place, whatever the later conditions are. -/
theorem faultOrder : Obligations.FaultOrder := by
  refine ⟨fun _ _ _ _ _ => rfl, missingInstanceFaults, fun _ _ _ _ h => exec_readRom_bad_sel (selOf_fail h),
    fun i s ha hi => exec_of_not_admitted ha (op_ne_opReserved hi), fun id freqDiff vib ampDiff s o ho h => ?_,
    fun i s t r => kind_ne_domain_of_not_ready⟩
  obtain ⟨f, hregs⟩ := exists_sampleRegs_error h
  exact ⟨f, exec_fetchSample_unwritten ho hregs⟩

end Sys2Proof.Machine

/-! # Proofs: commands on different operators -/

namespace Sys2Proof.Machine

/-! ## The same command on two states -/

/-- `r`, an outcome on `s`, and `r'`, one on `s'`, drive the same Y and leave every operator alike that was alike. -/
def SameEffect (s s' : State) (r r' : Result) : Prop :=
  ∃ t t' : State, r = .next t ∧ r' = .next t' ∧ t.y = t'.y ∧
    ∀ k : Nat, s.ops[k]? = s'.ops[k]? → t.ops[k]? = t'.ops[k]?

theorem sameEffect_raise (s s' : State) (id : Nat) (op : Opcode) (info : FaultInfo) :
    SameEffect s s' (raise s id op info) (raise s' id op info) := ⟨_, _, rfl, rfl, rfl, fun _ hk => hk⟩

/-- Writing the same operator back and driving the same Y is the same effect. -/
theorem sameEffect_wrote (s s' : State) (id : Nat) (o : Operator) (v : Option Word) :
    SameEffect s s' (.next ((s.setOp id o).complete v)) (.next ((s'.setOp id o).complete v)) := by
  refine ⟨_, _, rfl, rfl, rfl, fun k hk => ?_⟩
  simp only [State.complete_ops, State.setOp_ops, List.getElem?_set', hk]

theorem sameEffect_withOperator {s s' : State} {id : Nat} (op : Opcode) {k k' : Operator → Result}
    (ho : s.ops[id]? = s'.ops[id]?) (h : ∀ o, SameEffect s s' (k o) (k' o)) :
    SameEffect s s' (withOperator s id op k) (withOperator s' id op k') := by
  simp only [withOperator, ho]
  cases s'.ops[id]? with
  | none => exact sameEffect_raise ..
  | some o => exact h o

/-- The tables are ready in both states and read the same. -/
structure SameTables (s s' : State) : Prop where
  ready : s.tablesReady = true
  ready' : s'.tablesReady = true
  romRead : s.romRead = s'.romRead

theorem SameTables.sameEffect_finishRead {s s' : State} (h : SameTables s s') (id : Nat) (op : Opcode) (rom : RomName)
    (i : Nat) : SameEffect s s' (finishRead s id op rom i) (finishRead s' id op rom i) := by
  simp only [finishRead, h.ready, h.ready', h.romRead, if_true]
  cases s'.romRead rom i with
  | none => exact sameEffect_raise ..
  | some v => exact ⟨_, _, rfl, rfl, rfl, fun _ hk => hk⟩

theorem SameTables.sameEffect_sampleLookup {s s' : State} (h : SameTables s s') (id : Nat) (o : Operator)
    (r : SampleRegs) (realPhase : BitVec 20) (vib ampDiff : Word) :
    SameEffect s s' (sampleLookup s id o r realPhase vib ampDiff) (sampleLookup s' id o r realPhase vib ampDiff) := by
  simp only [sampleLookup, h.romRead]
  split
  · exact sameEffect_raise ..
  · split
    · split
      · exact sameEffect_raise ..
      · exact sameEffect_wrote ..
    · exact sameEffect_raise ..

/-- Over ready tables a command's effect depends on the tables and on the operator it selects alone (R64, R209). -/
theorem SameTables.sameEffect_exec {s s' : State} (h : SameTables s s') {i : Instr}
    (ho : selectsOperator i = true → s.ops[i.id]? = s'.ops[i.id]?) : SameEffect s s' (exec i s) (exec i s') := by
  cases i with
  | setFrequency | setMultiplier =>
    refine sameEffect_withOperator _ (ho rfl) fun o => ?_
    split
    · exact sameEffect_raise ..
    · exact sameEffect_wrote ..
  | setRectify | start => exact sameEffect_withOperator _ (ho rfl) fun o => sameEffect_wrote ..
  | fetchSample =>
    refine sameEffect_withOperator _ (ho rfl) fun o => ?_
    cases sampleRegs o with
    | error field => exact sameEffect_raise ..
    | ok r =>
      simp only [h.ready, h.ready', if_true]
      exact h.sameEffect_sampleLookup ..
  | dbToLinear =>
    simp only [exec, execDbToLinear]
    split
    · exact sameEffect_raise ..
    · exact h.sameEffect_finishRead ..
  | readRom =>
    simp only [exec, execReadRom]
    split
    · exact sameEffect_raise ..
    · split
      · exact sameEffect_raise ..
      · exact h.sameEffect_finishRead ..
  | reserved => exact sameEffect_raise ..

/-! ## Before and after a command on another operator -/

/-- Over ready tables no command makes the tables unready or read otherwise. -/
theorem sameTables_of_exec {i : Instr} {s t : State} (hs : s.tablesReady = true) (h : exec i s = .next t) :
    SameTables s t :=
  ⟨hs, (exec_tablesReady h).trans hs, funext₂ fun rom k => (exec_romRead h rom k).symm⟩

/-- A command leaves every operator it does not select (R209). -/
theorem exec_keeps_unselected_op {i : Instr} {s t : State} {k : Nat} (hk : selectsOperator i = true → i.id ≠ k)
    (h : exec i s = .next t) : s.ops[k]? = t.ops[k]? := by
  cases hs : selectsOperator i with
  | false => rw [exec_ops_of_not_selects hs h]
  | true => exact ((exec_keeps_other_ops h).1 k (hk hs).symm).symm

/-- A command on another operator changes neither the Y that a command drives nor its effect on an operator that the
other command leaves. -/
theorem exec_after_other {i j : Instr} {s t t' u' : State} (hs : s.tablesReady = true)
    (hij : selectsOperator i = true → selectsOperator j = true → i.id ≠ j.id)
    (hi : exec i s = .next t) (hj : exec j s = .next t') (hi' : exec i t' = .next u') :
    t.y = u'.y ∧ ∀ k : Nat, s.ops[k]? = t'.ops[k]? → t.ops[k]? = u'.ops[k]? := by
  have hown (hsel : selectsOperator i = true) : s.ops[i.id]? = t'.ops[i.id]? :=
    exec_keeps_unselected_op (fun hselj => (hij hsel hselj).symm) hj
  obtain ⟨_, _, hnext, hnext', heffect⟩ := (sameTables_of_exec hs hj).sameEffect_exec hown
  cases hi.symm.trans hnext
  cases hi'.symm.trans hnext'
  exact heffect

/-- Settles O49: each operator is left by one of the two commands, and the other one has the same effect on it before and
after that command. -/
theorem instancesAreIndependent : Obligations.InstancesAreIndependent := by
  intro i j s t u t' u' hs hij hi hj hj' hi'
  obtain ⟨hyi, hopsi⟩ := exec_after_other hs hij hi hj' hi'
  obtain ⟨hyj, hopsj⟩ := exec_after_other hs (fun hselj hseli => (hij hseli hselj).symm) hj' hi hj
  refine ⟨List.ext_getElem? fun k => ?_, hyi, hyj.symm⟩
  by_cases hk : selectsOperator i = true → i.id ≠ k
  · calc u.ops[k]? = t'.ops[k]? := (hopsj k (exec_keeps_unselected_op hk hi)).symm
      _ = u'.ops[k]? := exec_keeps_unselected_op hk hi'
  · push Not at hk
    obtain ⟨hsel, rfl⟩ := hk
    have hkj : selectsOperator j = true → j.id ≠ i.id := fun hselj => (hij hsel hselj).symm
    calc u.ops[i.id]? = t.ops[i.id]? := (exec_keeps_unselected_op hkj hj).symm
      _ = u'.ops[i.id]? := hopsi _ (exec_keeps_unselected_op hkj hj')

end Sys2Proof.Machine

/-! # Proofs: power-on and the idle core -/

namespace Sys2Proof.Machine

/-- At power-on a GENERATED core has written no ROM word (R230). -/
theorem powerOn_generated_romRead (n : Nat) (rom : RomName) (i : Nat) :
    (State.powerOn .generated n).romRead rom i = none := by
  by_cases hi : i < romSize rom
  · cases rom <;> simp only [State.romRead, hi, if_true] <;> rfl
  · simp only [State.romRead, hi, if_false]

/-- Settles O9: the PRECOMPUTED ROMs hold their contents and the GENERATED ones nothing; every operator is a copy of
`Operator.powerOn`, and the bits and the fault record are written out in `State.powerOn`. -/
theorem powerOnState : Obligations.PowerOnState := by
  intro mode n
  refine ⟨fun rom i hi => ?_, rfl, rfl, rfl, List.length_replicate .., fun o ho => ?_, rfl⟩
  · cases mode with
    | precomputed => exact powerOn_holds rfl rom i hi
    | generated => exact powerOn_generated_romRead n rom i
  · obtain rfl : o = Operator.powerOn := List.eq_of_mem_replicate ho
    exact ⟨rfl, rfl, rfl, rfl, rfl, rfl⟩

/-- Settles O10: `State.reset` is a power-on state, with at least one operator. -/
theorem invariantAtPowerOn : Obligations.InvariantAtPowerOn :=
  ⟨fun mode _ hn => powerOn_inv mode hn, powerOn_inv Config.romMode (n := Config.nOperators) (by decide)⟩

/-- Settles O48: the step with no command pending is `dropTurn`. -/
theorem idleCoreWaits : Obligations.IdleCoreWaits :=
  fun _ ⟨hcommands, hfault⟩ hturn => step_of_no_command hfault hturn hcommands

end Sys2Proof.Machine
